-- ==== Sys2Proof/Word.lean ====
section
/-! DEFINITION. The word types of the core (spec/10_state.md R20, R24, R28; spec/30_encoding.md R71). -/

namespace Sys2Proof

/-- A 16-bit value: an instruction word, `pc`, `I` or a call-stack entry (R24, R28, R31, R70). -/
abbrev Word := BitVec 16

/-- An 8-bit value: a general register, a timer or a byte of memory (R20, R29, R34). -/
abbrev Byte := BitVec 8

/-- A 4-bit field of an instruction word, or a key code 0x0..0xF (R71, R220). -/
abbrev Nibble := BitVec 4

/-- The 12-bit address immediate `NNN` (R71). -/
abbrev Addr12 := BitVec 12

/-- The number of a general register `V0`..`VF` (R20). -/
abbrev RegIdx := Fin 16

/-- The number of sprite rows of a DRAW, 0..15 (R73). -/
abbrev RowCount := Fin 16

end Sys2Proof
end

