-- ==== Sys2Proof/Config.lean ====
section
/-! DEFINITION. The parameters of spec/00_scope.md R7, and the free values: what the spec leaves to the host
or the scheduler and gives no law for. A free value is an opaque constant, so no proof can see what it is. -/

namespace Sys2Proof

/-- `MEM_SIZE`: addresses 0x000..0xFFF exist (R7, R50). -/
def Config.memSize : Nat := 0x1000

/-- `PROGRAM_BASE`: a ROM image is loaded from here (R7, R243). -/
def Config.programBase : Nat := 0x200

/-- `RESET_PC` (R7, R24, R37). -/
def Config.resetPc : Word := 0x200

/-- `MAX_ROM_SIZE`: 3584 bytes (R7, R243). -/
def Config.maxRomSize : Nat := Config.memSize - Config.programBase

/-- `STACK_DEPTH` (R7, R31; decision D8). -/
def Config.stackDepth : Nat := 16

/-- `FONT_BASE` is OPEN: any address with `FONT_BASE + 80 <= 0x200`, that is 0..432 (R7, R59; decision D12).
A constant of the implementation with no body: every claim holds for each value it may have. Log entry 1. -/
opaque Config.fontBase : Fin 433

/-- The two forms of BCD (R7, R154; decision D11). -/
inductive BcdMode where
  /-- `VARIABLE`: the decimal digits with no leading zero. -/
  | variableLength
  /-- `FIXED3`: always three digits, hundreds first. -/
  | fixed3
deriving DecidableEq, Repr

/-- `BCD_MODE`: this spec's value is `VARIABLE` (R7, R154; decision D11). Log entry 3. -/
def Config.bcdMode : BcdMode := .variableLength

/-- `SOUND_TIMER_DECREMENTS`: this spec's value is true (R7, R30; decision D9). Log entry 4. -/
def Config.soundTimerDecrements : Bool := true

/-- `CPU_HZ`, default 1000; used by the example schedule of R218 alone (R7, R260). -/
def Config.cpuHz : Nat := 1000

/-- `TIMER_HZ` (R7, R211). -/
def Config.timerHz : Nat := 60

/-- Who moves next when no input is queued: one of the block's two agents, or the host's stop (R215, R219, R226). -/
inductive Agent where
  /-- The instruction engine runs one `InstructionCycle` (R96). -/
  | engine
  /-- The timer runs one `TimerTick` (R212). -/
  | timer
  /-- The host stops the VM (R226). -/
  | hostStop
deriving DecidableEq, Repr, Inhabited

/-- The order of instruction cycles, timer ticks and the host's stop is open (R217, R210) but fair (R219): in each
round any finite list of moves, a free value, comes before one move of the engine and one of the timer. Log entry 6. -/
opaque Config.freeMoves : Nat → List Agent

/-- The key sample of a cycle the scheduler runs by itself: any finite sequence of key codes (R222). Log entry 6. -/
opaque Config.keySample : Nat → List Nibble

/-- The random byte of a cycle the scheduler runs by itself: any byte, under no law (R221). Log entry 6. -/
opaque Config.randByte : Nat → Byte

end Sys2Proof
end

