-- ==== Sys2Proof/Machine/State.lean ====
section
/-! DEFINITION. The state of the machine: everything spec/10_state.md gives the core (R20 to R37), the input ports
of spec/60_exceptions.md R220 as plain data, and the state after reset (spec/70_reset_and_hazards.md R240). -/

namespace Sys2Proof.Machine

/-- The memory of 4096 bytes as the list of the cells that differ from their reset contents, addresses strictly
rising; an address that is not listed holds its reset contents (`resetByte`, R37). -/
abbrev Memory := List Host.Cell

/-- The framebuffer: 32 rows of 64 pixels, `fb[y][x]` (R33). -/
abbrev Framebuffer := Vector (Vector Bool 64) 32

/-- `run_state` (R35). -/
inductive RunState where
  /-- After reset, before start: no cycle and no tick runs (R241). -/
  | ready
  /-- Both agents step (R217, R242). -/
  | running
  /-- After a fatal error, until reset (R202, R206). -/
  | haltedFault
  /-- After the host's stop, until reset (R226). -/
  | stopped
deriving DecidableEq, Repr

/-- The fatal errors (R200). `UnknownInstruction` is no fault: it is an event (R95). -/
inductive FaultKind where
  | memoryFault
  | stackUnderflow
  | stackOverflow
  | romTooLarge
deriving DecidableEq, Repr

/-- The fault record `{kind, addr, pc_at, word}` (R35, R202), with the image length that `RomTooLarge` records
in place of an address (R200). -/
structure FaultRecord where
  kind   : FaultKind
  /-- The lowest out-of-range address of a `MemoryFault`; addresses are unbounded integers (R52, R200). -/
  addr   : Option Nat
  /-- The address the faulting instruction was fetched from; none for a load. -/
  pcAt   : Option Word
  /-- The instruction word; none for a fetch fault and for a load. -/
  word   : Option Word
  /-- The image length, for `RomTooLarge` only. -/
  length : Option Nat
deriving DecidableEq, Repr

/-- One record of the unknown-instruction stream (R35, R95). -/
structure UnknownRecord where
  word : Word
  addr : Word
deriving DecidableEq, Repr

/-- What the host delivers at the input ports (R220). -/
inductive HostEvent where
  /-- `cycle_strobe`, with the sample of `keys` and of `rand_byte` this cycle takes (R96, R221, R222). The codes
  are bytes here, so that a host outside its contract can be written down and refused (R227). -/
  | cycleStrobe (keyCodes : List Byte) (randByte : Byte)
  /-- `tick_strobe` (R212). -/
  | tickStrobe
  /-- `stop` (R226). -/
  | stop
  /-- `start` (R242). -/
  | start
  /-- `reset` (R240). -/
  | reset
  /-- `rom_load`, the ROM image (R243). -/
  | romLoad (image : List Byte)
deriving DecidableEq, Repr

/-- The reasons a step could stop the model with a fault. There is none: every fatal error of the spec leaves a
state the spec describes (R202), so it is a NEXT state with `run_state = HALTED_FAULT`. -/
inductive Fault where
deriving DecidableEq, Repr

/-- The reasons a step is refused. -/
inductive Refusal where
  /-- Raised by `exec` for an instruction that has no meaning yet; no arm raises it now. Safe. -/
  | notModelled (mnemonic : String)
  /-- Raised by `step` for a cycle strobe whose key sample holds a code above 0xF, "outside the contract"
  (R227; spec/93_implementation_defined.md U13). Safe: nothing is claimed of such a host. -/
  | keyCodeOutOfContract
  /-- Raised by `step` for a ROM load when `run_state` is not READY (R243; U23). Safe: nothing is claimed of
  such a host. -/
  | loadOutsideReady
deriving DecidableEq, Repr

/-- The machine's state. -/
structure State where
  /-- V0..VF; VF is register 15 (R20, R22). -/
  v : Vector Byte 16
  /-- The program counter (R24). -/
  pc : Word
  /-- The index register `I` (R28). -/
  iReg : Word
  /-- The delay timer `DT` (R29). -/
  dt : Byte
  /-- The sound timer `ST` (R30). -/
  st : Byte
  /-- The call stack, top last (R11, R31). -/
  stack : List Word
  /-- The framebuffer (R33). -/
  fb : Framebuffer
  /-- The memory (R34, R50). -/
  mem : Memory
  /-- `run_state` (R35). -/
  runState : RunState
  /-- `fault` (R35). -/
  fault : Option FaultRecord
  /-- The unknown-instruction event stream, oldest first (R35, R225). -/
  unknownEvents : List UnknownRecord
  /-- The key sample this cycle has taken from the `keys` port (R96, R222). An input, not set by the core. -/
  keys : List Nibble
  /-- The byte this cycle has taken from the `rand_byte` port (R96, R221). An input, not set by the core. -/
  rand : Byte
  /-- The model's own field: what the host is about to deliver, the next event first (R220). -/
  inputs : List HostEvent
  /-- The model's own field: how many free values have been drawn (log entry 6). -/
  draws : Nat
deriving DecidableEq, Repr

/-- The state right after reset (R37, R240). The spec states every value but those of the last four fields, which
are the ports and the model's own (log entry 7). -/
def State.reset : State :=
  { v := Vector.replicate 16 0
    pc := Config.resetPc
    iReg := 0
    dt := 0
    st := 0
    stack := []
    fb := Vector.replicate 32 (Vector.replicate 64 false)
    mem := []
    runState := .ready
    fault := none
    unknownEvents := []
    keys := []
    rand := 0
    inputs := []
    draws := 0 }

end Sys2Proof.Machine
end

