-- ==== Sys2Proof/Machine/Flags.lean ====
section
/-! DEFINITION. The flag computations: the value each instruction of spec/10_state.md R22 writes to VF
(spec/42_alu.md R126 to R130 and R133, spec/44_display.md R174). -/

namespace Sys2Proof.Machine

/-- The number of the flag register VF (R22). -/
def vf : RegIdx := 15

/-- A flag is 0 or 1 (R22). -/
def flagByte (b : Bool) : Byte := if b then 1 else 0

/-- ADD: the carry, 1 when the unwrapped sum is above 255 (R126; the threshold is that of conflict C1). -/
def carryFlag (x y : Byte) : Byte := flagByte (decide (x.toNat + y.toNat > 255))

/-- SUB_VX and SUB_VY: 1 when subtracting `b` from `a` borrows nothing, that is `a >= b` (R127, R129). -/
def noBorrowFlag (a b : Byte) : Byte := flagByte (decide (a.toNat ≥ b.toNat))

/-- SHIFT_RIGHT: bit 0, the bit shifted out (R128). -/
def shiftedOutRight (x : Byte) : Byte := x &&& 1

/-- SHIFT_LEFT: bit 7, the bit shifted out (R130). -/
def shiftedOutLeft (x : Byte) : Byte := (x >>> 7) &&& 1

/-- DRAW: 1 when a pixel went from on to off (R174). -/
def collisionFlag (c : Bool) : Byte := flagByte c

end Sys2Proof.Machine
end

