-- ==== Sys2Proof/Syntax.lean ====
section
/-! DEFINITION. The instruction set: one constructor per row of spec/opcode_table.json, in the table's order.
A bit field the core ignores (X of CLS and RETURN, N of the two register skips, Y of the two shifts: R76, R77,
R128, R130) is kept as a field, so that an instruction stands for exactly one word and a fault record can give
that word back (R202). -/

namespace Sys2Proof

/-- The 34 instructions of spec/30_encoding.md R75 to R80. -/
inductive Instr where
  /-- CLS `0XE0`, any X (R170). -/
  | cls (ignoredX : Nibble)
  /-- RETURN `0XEE`, any X (R104). -/
  | ret (ignoredX : Nibble)
  /-- JUMP `1NNN` (R101). -/
  | jump (nnn : Addr12)
  /-- CALL `2NNN` (R103). -/
  | call (nnn : Addr12)
  /-- SKIP_EQ_NN `3XNN` (R105). -/
  | skipEqNn (x : RegIdx) (nn : Byte)
  /-- SKIP_NE_NN `4XNN` (R106). -/
  | skipNeNn (x : RegIdx) (nn : Byte)
  /-- SKIP_EQ_VY `5XYN`, any N (R107). -/
  | skipEqVy (x y : RegIdx) (ignoredN : Nibble)
  /-- SET_VX `6XNN` (R120). -/
  | setVx (x : RegIdx) (nn : Byte)
  /-- ADD_VX `7XNN` (R121). -/
  | addVx (x : RegIdx) (nn : Byte)
  /-- SET `8XY0` (R122). -/
  | setReg (x y : RegIdx)
  /-- OR `8XY1` (R123). -/
  | orReg (x y : RegIdx)
  /-- AND `8XY2` (R124). -/
  | andReg (x y : RegIdx)
  /-- XOR `8XY3` (R125). -/
  | xorReg (x y : RegIdx)
  /-- ADD `8XY4` (R126). -/
  | addReg (x y : RegIdx)
  /-- SUB_VX `8XY5` (R127). -/
  | subVx (x y : RegIdx)
  /-- SHIFT_RIGHT `8XY6`; Y is encoded and not read (R128). -/
  | shiftRight (x : RegIdx) (ignoredY : Nibble)
  /-- SUB_VY `8XY7` (R129). -/
  | subVy (x y : RegIdx)
  /-- SHIFT_LEFT `8XYE`; Y is encoded and not read (R130). -/
  | shiftLeft (x : RegIdx) (ignoredY : Nibble)
  /-- SKIP_NE_VY `9XYN`, any N (R108). -/
  | skipNeVy (x y : RegIdx) (ignoredN : Nibble)
  /-- SET_I `ANNN` (R150). -/
  | setI (nnn : Addr12)
  /-- JUMP_OFFSET `BNNN` (R102). -/
  | jumpOffset (nnn : Addr12)
  /-- RAND `CXNN` (R131). -/
  | rand (x : RegIdx) (nn : Byte)
  /-- DRAW `DXYN` (R171). -/
  | draw (x y : RegIdx) (n : RowCount)
  /-- SKIP_KEY `EX9E` (R185). -/
  | skipKey (x : RegIdx)
  /-- SKIP_NOT_KEY `EXA1` (R186). -/
  | skipNotKey (x : RegIdx)
  /-- GET_DELAY `FX07` (R190). -/
  | getDelay (x : RegIdx)
  /-- GET_KEY `FX0A` (R187). -/
  | getKey (x : RegIdx)
  /-- SET_DELAY `FX15` (R191). -/
  | setDelay (x : RegIdx)
  /-- SET_SOUND `FX18` (R192). -/
  | setSound (x : RegIdx)
  /-- ADD_I `FX1E` (R151). -/
  | addI (x : RegIdx)
  /-- FONT_CHAR `FX29` (R152). -/
  | fontChar (x : RegIdx)
  /-- BCD `FX33` (R153). -/
  | bcd (x : RegIdx)
  /-- STORE_REGS `FX55` (R155). -/
  | storeRegs (x : RegIdx)
  /-- LOAD_REGS `FX65` (R156). -/
  | loadRegs (x : RegIdx)
deriving DecidableEq, Repr

end Sys2Proof
end

