-- ==== Sys2Proof/Decode.lean ====
section
/-! DEFINITION. The Decoder (spec/30_encoding.md R71, R72), the dispatch on its fields (R74 to R80), the opcode table
(R75, R82, R94), the encoder, and the layout of a word in memory (spec/20_memory.md R55). -/

namespace Sys2Proof

/-! ### The fields of a word -/

/-- The six fields of an instruction word (R71; `op` is the source's field `I`, R12). -/
structure Fields where
  op  : Nibble
  x   : Nibble
  y   : Nibble
  n   : Nibble
  nn  : Byte
  nnn : Addr12
deriving DecidableEq, Repr

/-- The Decoder: a pure, total function of the word (R71, R72, R93). -/
def fields (w : Word) : Fields :=
  { op  := w.extractLsb' 12 4
    x   := w.extractLsb' 8 4
    y   := w.extractLsb' 4 4
    n   := w.extractLsb' 0 4
    nn  := w.extractLsb' 0 8
    nnn := w.extractLsb' 0 12 }

/-- The register a 4-bit field names (R20). -/
def regOf (f : Nibble) : RegIdx := f.toFin

/-- The 4-bit field that names a register. -/
def nibbleOf (x : RegIdx) : Nibble := BitVec.ofFin x

/-! ### From a word to an instruction -/

/-- Why bytes are no instruction, by name: the four rows of the unknown space of R81, and too few bytes. -/
inductive DecodeError where
  /-- Family 0x0 with NN other than 0xE0 and 0xEE. -/
  | unknown0 (w : Word)
  /-- Family 0x8 with N in 0x8..0xD or 0xF. -/
  | unknown8 (w : Word)
  /-- Family 0xE with NN other than 0x9E and 0xA1. -/
  | unknownE (w : Word)
  /-- Family 0xF with an NN that R80 does not list. -/
  | unknownF (w : Word)
  /-- Fewer than two bytes: no word. -/
  | truncated
deriving DecidableEq, Repr

/-- Family 0x0: by NN alone; X is not examined (R76). -/
def decodeFamily0 (w : Word) (f : Fields) : Except DecodeError Instr :=
  match f.nn with
  | 0xE0#8 => .ok (.cls f.x)
  | 0xEE#8 => .ok (.ret f.x)
  | _ => .error (.unknown0 w)

/-- Family 0x8: by N (R78). -/
def decodeFamily8 (w : Word) (f : Fields) : Except DecodeError Instr :=
  match f.n with
  | 0x0#4 => .ok (.setReg (regOf f.x) (regOf f.y))
  | 0x1#4 => .ok (.orReg (regOf f.x) (regOf f.y))
  | 0x2#4 => .ok (.andReg (regOf f.x) (regOf f.y))
  | 0x3#4 => .ok (.xorReg (regOf f.x) (regOf f.y))
  | 0x4#4 => .ok (.addReg (regOf f.x) (regOf f.y))
  | 0x5#4 => .ok (.subVx (regOf f.x) (regOf f.y))
  | 0x6#4 => .ok (.shiftRight (regOf f.x) f.y)
  | 0x7#4 => .ok (.subVy (regOf f.x) (regOf f.y))
  | 0xE#4 => .ok (.shiftLeft (regOf f.x) f.y)
  | _ => .error (.unknown8 w)

/-- Family 0xE: by NN (R79). -/
def decodeFamilyE (w : Word) (f : Fields) : Except DecodeError Instr :=
  match f.nn with
  | 0x9E#8 => .ok (.skipKey (regOf f.x))
  | 0xA1#8 => .ok (.skipNotKey (regOf f.x))
  | _ => .error (.unknownE w)

/-- Family 0xF: by NN (R80). -/
def decodeFamilyF (w : Word) (f : Fields) : Except DecodeError Instr :=
  match f.nn with
  | 0x07#8 => .ok (.getDelay (regOf f.x))
  | 0x0A#8 => .ok (.getKey (regOf f.x))
  | 0x15#8 => .ok (.setDelay (regOf f.x))
  | 0x18#8 => .ok (.setSound (regOf f.x))
  | 0x1E#8 => .ok (.addI (regOf f.x))
  | 0x29#8 => .ok (.fontChar (regOf f.x))
  | 0x33#8 => .ok (.bcd (regOf f.x))
  | 0x55#8 => .ok (.storeRegs (regOf f.x))
  | 0x65#8 => .ok (.loadRegs (regOf f.x))
  | _ => .error (.unknownF w)

/-- The family map of R75. The last arm is the one family left, `op = 0xF`. -/
def decodeWord (w : Word) : Except DecodeError Instr :=
  let f := fields w
  match f.op with
  | 0x0#4 => decodeFamily0 w f
  | 0x1#4 => .ok (.jump f.nnn)
  | 0x2#4 => .ok (.call f.nnn)
  | 0x3#4 => .ok (.skipEqNn (regOf f.x) f.nn)
  | 0x4#4 => .ok (.skipNeNn (regOf f.x) f.nn)
  | 0x5#4 => .ok (.skipEqVy (regOf f.x) (regOf f.y) f.n)
  | 0x6#4 => .ok (.setVx (regOf f.x) f.nn)
  | 0x7#4 => .ok (.addVx (regOf f.x) f.nn)
  | 0x8#4 => decodeFamily8 w f
  | 0x9#4 => .ok (.skipNeVy (regOf f.x) (regOf f.y) f.n)
  | 0xA#4 => .ok (.setI f.nnn)
  | 0xB#4 => .ok (.jumpOffset f.nnn)
  | 0xC#4 => .ok (.rand (regOf f.x) f.nn)
  | 0xD#4 => .ok (.draw (regOf f.x) (regOf f.y) f.n.toFin)
  | 0xE#4 => decodeFamilyE w f
  | _     => decodeFamilyF w f

/-- The word of two bytes, the byte at the lower address the more significant (R55; decision D2). -/
def wordOfBytes (hi lo : Byte) : Word := hi ++ lo

/-- The two bytes of a word as memory holds them, the lower address first (R55). -/
def bytesOfWord (w : Word) : List Byte := [w.extractLsb' 8 8, w.extractLsb' 0 8]

/-- Decode the instruction that a byte sequence begins with, and give the bytes after it (R70). -/
def decode (bytes : List Byte) : Except DecodeError (Instr × List Byte) :=
  match bytes with
  | hi :: lo :: rest =>
    match decodeWord (wordOfBytes hi lo) with
    | .ok i => .ok (i, rest)
    | .error e => .error e
  | _ => .error .truncated

/-! ### From an instruction to its word -/

/-- A word of four nibbles, `op` the most significant (R71). -/
def word4 (op x y n : Nibble) : Word := op ++ x ++ y ++ n

/-- A word of the form `opXNN`. -/
def wordXNN (op : Nibble) (x : RegIdx) (nn : Byte) : Word := op ++ nibbleOf x ++ nn

/-- A word of the form `opNNN`. -/
def wordNNN (op : Nibble) (nnn : Addr12) : Word := op ++ nnn

/-- The word of an instruction, from the patterns of R75 to R80. -/
def encode (i : Instr) : Word :=
  match i with
  | .cls x => word4 0x0 x 0xE 0x0
  | .ret x => word4 0x0 x 0xE 0xE
  | .jump nnn => wordNNN 0x1 nnn
  | .call nnn => wordNNN 0x2 nnn
  | .skipEqNn x nn => wordXNN 0x3 x nn
  | .skipNeNn x nn => wordXNN 0x4 x nn
  | .skipEqVy x y n => word4 0x5 (nibbleOf x) (nibbleOf y) n
  | .setVx x nn => wordXNN 0x6 x nn
  | .addVx x nn => wordXNN 0x7 x nn
  | .setReg x y => word4 0x8 (nibbleOf x) (nibbleOf y) 0x0
  | .orReg x y => word4 0x8 (nibbleOf x) (nibbleOf y) 0x1
  | .andReg x y => word4 0x8 (nibbleOf x) (nibbleOf y) 0x2
  | .xorReg x y => word4 0x8 (nibbleOf x) (nibbleOf y) 0x3
  | .addReg x y => word4 0x8 (nibbleOf x) (nibbleOf y) 0x4
  | .subVx x y => word4 0x8 (nibbleOf x) (nibbleOf y) 0x5
  | .shiftRight x y => word4 0x8 (nibbleOf x) y 0x6
  | .subVy x y => word4 0x8 (nibbleOf x) (nibbleOf y) 0x7
  | .shiftLeft x y => word4 0x8 (nibbleOf x) y 0xE
  | .skipNeVy x y n => word4 0x9 (nibbleOf x) (nibbleOf y) n
  | .setI nnn => wordNNN 0xA nnn
  | .jumpOffset nnn => wordNNN 0xB nnn
  | .rand x nn => wordXNN 0xC x nn
  | .draw x y n => word4 0xD (nibbleOf x) (nibbleOf y) (BitVec.ofFin n)
  | .skipKey x => wordXNN 0xE x 0x9E
  | .skipNotKey x => wordXNN 0xE x 0xA1
  | .getDelay x => wordXNN 0xF x 0x07
  | .getKey x => wordXNN 0xF x 0x0A
  | .setDelay x => wordXNN 0xF x 0x15
  | .setSound x => wordXNN 0xF x 0x18
  | .addI x => wordXNN 0xF x 0x1E
  | .fontChar x => wordXNN 0xF x 0x29
  | .bcd x => wordXNN 0xF x 0x33
  | .storeRegs x => wordXNN 0xF x 0x55
  | .loadRegs x => wordXNN 0xF x 0x65

/-- The bytes of an instruction as memory holds them. -/
def encodeBytes (i : Instr) : List Byte := bytesOfWord (encode i)

/-! ### The opcode table -/

/-- A row of spec/opcode_table.json: it selects the words `w` with `w &&& mask = pattern` (R94). -/
structure OpcodeRow where
  mnemonic : String
  pattern  : Word
  mask     : Word
deriving DecidableEq, Repr

/-- Does the row select the word (R94)? -/
def rowSelects (r : OpcodeRow) (w : Word) : Bool := w &&& r.mask == r.pattern

/-- The table's row of an instruction. -/
def rowOf (i : Instr) : OpcodeRow :=
  match i with
  | .cls _ => ⟨"CLS", 0x00E0, 0xF0FF⟩
  | .ret _ => ⟨"RETURN", 0x00EE, 0xF0FF⟩
  | .jump _ => ⟨"JUMP", 0x1000, 0xF000⟩
  | .call _ => ⟨"CALL", 0x2000, 0xF000⟩
  | .skipEqNn _ _ => ⟨"SKIP_EQ_NN", 0x3000, 0xF000⟩
  | .skipNeNn _ _ => ⟨"SKIP_NE_NN", 0x4000, 0xF000⟩
  | .skipEqVy _ _ _ => ⟨"SKIP_EQ_VY", 0x5000, 0xF000⟩
  | .setVx _ _ => ⟨"SET_VX", 0x6000, 0xF000⟩
  | .addVx _ _ => ⟨"ADD_VX", 0x7000, 0xF000⟩
  | .setReg _ _ => ⟨"SET", 0x8000, 0xF00F⟩
  | .orReg _ _ => ⟨"OR", 0x8001, 0xF00F⟩
  | .andReg _ _ => ⟨"AND", 0x8002, 0xF00F⟩
  | .xorReg _ _ => ⟨"XOR", 0x8003, 0xF00F⟩
  | .addReg _ _ => ⟨"ADD", 0x8004, 0xF00F⟩
  | .subVx _ _ => ⟨"SUB_VX", 0x8005, 0xF00F⟩
  | .shiftRight _ _ => ⟨"SHIFT_RIGHT", 0x8006, 0xF00F⟩
  | .subVy _ _ => ⟨"SUB_VY", 0x8007, 0xF00F⟩
  | .shiftLeft _ _ => ⟨"SHIFT_LEFT", 0x800E, 0xF00F⟩
  | .skipNeVy _ _ _ => ⟨"SKIP_NE_VY", 0x9000, 0xF000⟩
  | .setI _ => ⟨"SET_I", 0xA000, 0xF000⟩
  | .jumpOffset _ => ⟨"JUMP_OFFSET", 0xB000, 0xF000⟩
  | .rand _ _ => ⟨"RAND", 0xC000, 0xF000⟩
  | .draw _ _ _ => ⟨"DRAW", 0xD000, 0xF000⟩
  | .skipKey _ => ⟨"SKIP_KEY", 0xE09E, 0xF0FF⟩
  | .skipNotKey _ => ⟨"SKIP_NOT_KEY", 0xE0A1, 0xF0FF⟩
  | .getDelay _ => ⟨"GET_DELAY", 0xF007, 0xF0FF⟩
  | .getKey _ => ⟨"GET_KEY", 0xF00A, 0xF0FF⟩
  | .setDelay _ => ⟨"SET_DELAY", 0xF015, 0xF0FF⟩
  | .setSound _ => ⟨"SET_SOUND", 0xF018, 0xF0FF⟩
  | .addI _ => ⟨"ADD_I", 0xF01E, 0xF0FF⟩
  | .fontChar _ => ⟨"FONT_CHAR", 0xF029, 0xF0FF⟩
  | .bcd _ => ⟨"BCD", 0xF033, 0xF0FF⟩
  | .storeRegs _ => ⟨"STORE_REGS", 0xF055, 0xF0FF⟩
  | .loadRegs _ => ⟨"LOAD_REGS", 0xF065, 0xF0FF⟩

/-! ### The host's question -/

/-- The instruction the decoder reads from a table word of `nbits` bits: the word is laid out in memory order
(big-endian, R55) and given to `decode`; bits at and above `nbits` are 0. -/
def decodeTableWord (nbits w : Nat) : Option Instr :=
  match decode (bytesOfWord (BitVec.ofNat 16 (w % 2 ^ nbits))) with
  | .ok (i, _) => some i
  | .error _ => none

end Sys2Proof
end

