-- ==== Sys2Proof/Machine/Memory.lean ====
section
/-! DEFINITION. The memory of spec/20_memory.md: what an address holds after reset (R37, R59, R60), the read and the
write of one byte (R50, R53), sequences of byte accesses at ascending addresses (R51, R56), and the range check that
comes before them (R13, R52, R203). Addresses are unbounded natural numbers (R52). -/

namespace Sys2Proof.Machine

/-- `FONT_GLYPHS`: the 80 glyph bytes, glyph `d` at offset `5*d` (R60; the default table of decision D13, log
entry 2). -/
def fontGlyphs : List Byte :=
  [0xF0, 0x90, 0x90, 0x90, 0xF0,
   0x20, 0x60, 0x20, 0x20, 0x70,
   0xF0, 0x10, 0xF0, 0x80, 0xF0,
   0xF0, 0x10, 0xF0, 0x10, 0xF0] ++
  [0x90, 0x90, 0xF0, 0x10, 0x10,
   0xF0, 0x80, 0xF0, 0x10, 0xF0,
   0xF0, 0x80, 0xF0, 0x90, 0xF0,
   0xF0, 0x10, 0x20, 0x40, 0x40] ++
  [0xF0, 0x90, 0xF0, 0x90, 0xF0,
   0xF0, 0x90, 0xF0, 0x10, 0xF0,
   0xF0, 0x90, 0xF0, 0x90, 0x90,
   0xE0, 0x90, 0xE0, 0x90, 0xE0] ++
  [0xF0, 0x80, 0x80, 0x80, 0xF0,
   0xE0, 0x90, 0x90, 0x90, 0xE0,
   0xF0, 0x80, 0xF0, 0x80, 0xF0,
   0xF0, 0x80, 0xF0, 0x80, 0x80]

/-- A value of the parameter `FONT_GLYPHS`: 16 glyphs of 5 bytes (R7, R60). -/
abbrev FontTable := Vector Byte 80

/-- The default of `FONT_GLYPHS` (R60; decision D13). -/
def defaultFont : FontTable := ⟨⟨fontGlyphs⟩, rfl⟩

/-- What an address holds after reset, for any `FONT_GLYPHS` and `FONT_BASE`: the font table at `FONT_BASE`, zero
everywhere else (R37, R60, R240). The font lies below 0x200 (R59). -/
def resetByteWith (glyphs : FontTable) (base a : Nat) : Byte :=
  if a < Config.programBase then
    if base ≤ a then glyphs.toList.getD (a - base) 0 else 0
  else 0

/-- What an address holds after reset with the default font, which is what an address not listed reads as. -/
def resetByte (a : Nat) : Byte := resetByteWith defaultFont Config.fontBase.val a

/-- The byte a list of cells gives an address: the listed value, else the reset contents. -/
def Memory.readByte : Memory → Nat → Byte
  | [], a => resetByte a
  | (b, v) :: rest, a => if a = b then v else Memory.readByte rest a

/-- List a byte at an address, keeping the addresses rising. -/
def Memory.insertCell : Memory → Nat → Byte → Memory
  | [], a, v => [(a, v)]
  | (b, u) :: rest, a, v =>
    if a < b then (a, v) :: (b, u) :: rest
    else if a = b then (a, v) :: rest
    else (b, u) :: Memory.insertCell rest a v

/-- Take an address out of the list. -/
def Memory.eraseCell : Memory → Nat → Memory
  | [], _ => []
  | (b, u) :: rest, a => if a = b then rest else (b, u) :: Memory.eraseCell rest a

/-- Write one byte; an address with no memory (R59) takes nothing. The result is in canonical form: a byte equal to
the reset contents is not listed. -/
def Memory.writeByte (m : Memory) (a : Nat) (v : Byte) : Memory :=
  if a < Config.memSize then
    if v = resetByte a then m.eraseCell a else m.insertCell a v
  else m

/-- The canonical form: addresses strictly rising and inside the memory, no cell equal to the reset contents. -/
def Memory.wf (m : Memory) : Bool :=
  decide (m.Pairwise (fun c d => c.1 < d.1)) && m.all (fun c => c.1 < Config.memSize && c.2 != resetByte c.1)

/-- `MemRead(addr, 1)`; the error is the address the `MemoryFault` records (R53). -/
def memRead (m : Memory) (addr : Nat) : Except Nat Byte :=
  if 0xFFF < addr then .error addr else .ok (m.readByte addr)

/-- `MemWrite(addr, 1, v)`; the error is the address the `MemoryFault` records (R53). -/
def memWrite (m : Memory) (addr : Nat) (v : Byte) : Except Nat Memory :=
  if 0xFFF < addr then .error addr else .ok (m.writeByte addr v)

/-- The check before a sequence of `count` accesses from `base`: the lowest of their addresses above 0xFFF, if any
(R52, R171, R153, R155, R156, R203). -/
def firstOutOfRange (base count : Nat) : Option Nat :=
  ((List.range count).map (fun k => base + k)).find? (fun a => 0xFFF < a)

/-- The bytes at `base`, `base + 1`, ..., in ascending order (R51). -/
def readBytes (m : Memory) (base count : Nat) : List Byte :=
  (List.range count).map (fun k => m.readByte (base + k))

/-- Write bytes at `base`, `base + 1`, ..., in ascending order (R51, R243). -/
def writeBytes (m : Memory) (base : Nat) : List Byte → Memory
  | [] => m
  | b :: rest => writeBytes (m.writeByte base b) (base + 1) rest

/-- The memory after reset with any `FONT_GLYPHS`: the loop of R240 that writes the font. The default font is what
unlisted addresses read as, so it lists nothing. -/
def fontMemory (glyphs : FontTable) : Memory :=
  if glyphs = defaultFont then [] else writeBytes [] Config.fontBase.val glyphs.toList

end Sys2Proof.Machine
end

