-- ==== Sys2Proof/Machine/Ops.lean ====
section
/-! DEFINITION. The named operations on the state that the meanings share: register access, the skip (spec/41_flow.md
R100), the call stack (R103, R104), the register file as a sequence (R155, R156), taking a fatal error
(spec/60_exceptions.md R201, R202) and leaving it by re-initialization (R206, R240). -/

namespace Sys2Proof.Machine

/-- What a meaning answers. -/
abbrev Result := Host.Outcome State Fault Refusal

/-! ### Registers -/

/-- `V[x]` (R11, R20). -/
def State.readV (s : State) (x : RegIdx) : Byte := s.v[x]

/-- `V[x] <- b` (R11, R20). -/
def State.writeV (s : State) (x : RegIdx) (b : Byte) : State := { s with v := s.v.set x b }

/-- `pc <- target` (R11, R24). -/
def State.setPc (s : State) (target : Word) : State := { s with pc := target }

/-- `I <- value` (R11, R28). -/
def State.setI (s : State) (value : Word) : State := { s with iReg := value }

/-- `DT <- b` (R11, R29). -/
def State.setDt (s : State) (b : Byte) : State := { s with dt := b }

/-- `ST <- b` (R11, R30). -/
def State.setSt (s : State) (b : Byte) : State := { s with st := b }

/-- Replace the call stack (R31). -/
def State.setStack (s : State) (entries : List Word) : State := { s with stack := entries }

/-- Replace the framebuffer (R33). -/
def State.setFb (s : State) (fb : Framebuffer) : State := { s with fb := fb }

/-- Replace the memory (R34). -/
def State.setMem (s : State) (m : Memory) : State := { s with mem := m }

/-- Replace `run_state` (R35). -/
def State.setRunState (s : State) (r : RunState) : State := { s with runState := r }

/-- Take the samples of the `keys` and `rand_byte` ports for this cycle (R96, R221, R222). -/
def State.samplePorts (s : State) (keys : List Nibble) (rand : Byte) : State := { s with keys := keys, rand := rand }

/-! ### Control flow -/

/-- The advance of the instruction cycle: `pc <- a + 2` (R92). -/
def State.advance (s : State) : State := s.setPc (s.pc + 2)

/-- The skip primitive: `pc <- pc + 2` once more (R100). -/
def State.skip (s : State) : State := s.setPc (s.pc + 2)

/-- Skip if the condition holds (R100, R105 to R108, R185, R186). -/
def State.skipIf (s : State) (c : Bool) : State := if c then s.skip else s

/-- `push(v)`, top last (R11, R103). -/
def State.push (s : State) (entry : Word) : State := s.setStack (s.stack ++ [entry])

/-- The entry `pop()` gives, none of an empty stack (R11, R104). -/
def State.top (s : State) : Option Word := s.stack.getLast?

/-- The stack without the entry `pop()` takes (R104). -/
def State.dropTop (s : State) : State := s.setStack s.stack.dropLast

/-! ### The register file as a sequence of bytes -/

/-- `V0`, `V1`, ..., the first `count` registers (R155). -/
def State.firstRegisters (s : State) (count : Nat) : List Byte := s.v.toList.take count

/-- `V[k] <- b` for each byte in turn, from register `k` upward (R156). -/
def setRegistersFrom (v : Vector Byte 16) (k : Nat) : List Byte → Vector Byte 16
  | [] => v
  | b :: rest => setRegistersFrom (v.setIfInBounds k b) (k + 1) rest

/-- Load the first registers from a sequence of bytes (R156). -/
def State.loadRegisters (s : State) (bytes : List Byte) : State := { s with v := setRegistersFrom s.v 0 bytes }

/-! ### Fatal errors: the one way in and the one way out -/

/-- Taking a fatal error: `run_state` becomes HALTED_FAULT and the record is kept; everything else stays as the
caller leaves it, which is as it was before the cycle, `pc` apart (R201, R202). -/
def State.raiseFatal (s : State) (r : FaultRecord) : State :=
  { s with runState := .haltedFault, fault := some r }

/-- A fetch fault: `pc` still holds the fetch address, and there is no word (R91, R202). -/
def State.raiseFetch (s : State) (addr : Nat) : State :=
  s.raiseFatal { kind := .memoryFault, addr := some addr, pcAt := some s.pc, word := none, length := none }

/-- A fatal error of an instruction in its execute phase: `pc` is `a + 2` (R24, R92), so the record's `pc_at` is
`pc - 2`; the word is the instruction's own (R202). -/
def State.raiseExecute (s : State) (kind : FaultKind) (addr : Option Nat) (i : Instr) : State :=
  s.raiseFatal { kind := kind, addr := addr, pcAt := some (s.pc - 2), word := some (encode i), length := none }

/-- A ROM image that does not fit: the length is recorded in place of an address (R200, R207, R243; log entry 9). -/
def State.raiseRomTooLarge (s : State) (len : Nat) : State :=
  s.raiseFatal { kind := .romTooLarge, addr := none, pcAt := none, word := none, length := some len }

/-- The state after reset with any `FONT_GLYPHS` (R60, R240); with the default it is `State.reset`. -/
def State.resetWith (glyphs : FontTable) : State := { State.reset with mem := fontMemory glyphs }

/-- Re-initialization, the only way out of a fatal error and of a stop: every piece of the core's state takes its
reset value (R206, R240). What the host is about to deliver and holds at its ports is no state of the core. -/
def State.reinitialize (glyphs : FontTable) (s : State) : State :=
  { State.resetWith glyphs with keys := s.keys, rand := s.rand, inputs := s.inputs, draws := s.draws }

/-! ### Unknown words -/

/-- `report UnknownInstruction(w, a)`: one record on the observability channel and nothing else (R95, R225). -/
def State.reportUnknown (s : State) (w a : Word) : State :=
  { s with unknownEvents := s.unknownEvents ++ [{ word := w, addr := a }] }

end Sys2Proof.Machine
end

