-- ==== Sys2Proof/Machine/Alu.lean ====
section
/-! DEFINITION. Register arithmetic, logic and random (spec/42_alu.md R120 to R132). Operands are read before any
write; ADD, SUB_VX and SUB_VY write Vx and then VF, the shifts write VF and then Vx (decision D17). -/

namespace Sys2Proof.Machine

/-- SET_VX (R120). -/
def execSetVx (x : RegIdx) (nn : Byte) (s : State) : Result := .next (s.writeV x nn)

/-- ADD_VX: 8-bit wraparound, no flag (R121). -/
def execAddVx (x : RegIdx) (nn : Byte) (s : State) : Result := .next (s.writeV x (s.readV x + nn))

/-- SET (R122). -/
def execSetReg (x y : RegIdx) (s : State) : Result := .next (s.writeV x (s.readV y))

/-- OR (R123). -/
def execOrReg (x y : RegIdx) (s : State) : Result := .next (s.writeV x (s.readV x ||| s.readV y))

/-- AND (R124). -/
def execAndReg (x y : RegIdx) (s : State) : Result := .next (s.writeV x (s.readV x &&& s.readV y))

/-- XOR (R125). -/
def execXorReg (x y : RegIdx) (s : State) : Result := .next (s.writeV x (s.readV x ^^^ s.readV y))

/-- ADD: the sum, then the carry (R126). -/
def execAddReg (x y : RegIdx) (s : State) : Result :=
  .next ((s.writeV x (s.readV x + s.readV y)).writeV vf (carryFlag (s.readV x) (s.readV y)))

/-- SUB_VX: Vx - Vy, then the no-borrow flag (R127). -/
def execSubVx (x y : RegIdx) (s : State) : Result :=
  .next ((s.writeV x (s.readV x - s.readV y)).writeV vf (noBorrowFlag (s.readV x) (s.readV y)))

/-- SUB_VY: Vy - Vx, then the no-borrow flag (R129). -/
def execSubVy (x y : RegIdx) (s : State) : Result :=
  .next ((s.writeV x (s.readV y - s.readV x)).writeV vf (noBorrowFlag (s.readV y) (s.readV x)))

/-- SHIFT_RIGHT: bit 0 to VF, then the logical shift of Vx; Vy is not read (R128). -/
def execShiftRight (x : RegIdx) (s : State) : Result :=
  .next ((s.writeV vf (shiftedOutRight (s.readV x))).writeV x (s.readV x >>> 1))

/-- SHIFT_LEFT: bit 7 to VF, then the shift of Vx; Vy is not read (R130). -/
def execShiftLeft (x : RegIdx) (s : State) : Result :=
  .next ((s.writeV vf (shiftedOutLeft (s.readV x))).writeV x (s.readV x <<< 1))

/-- RAND: the byte sampled from the `rand_byte` port, masked (R131, R221). -/
def execRand (x : RegIdx) (nn : Byte) (s : State) : Result := .next (s.writeV x (nn &&& s.rand))

end Sys2Proof.Machine
end

