-- ==== Sys2Proof/Machine/Framebuffer.lean ====
section
/-! DEFINITION. The XOR sprite engine on the 64x32 framebuffer (spec/44_display.md R170 to R174): the loops of R171,
over the rows of a sprite and over the bits of a row. -/

namespace Sys2Proof.Machine

/-- Every pixel off (R170). -/
def clearedFramebuffer : Framebuffer := Vector.replicate 32 (Vector.replicate 64 false)

/-- A framebuffer being drawn on, and whether a pixel has gone from on to off so far: `fb` and `c` of R171. -/
abbrev Drawing := Framebuffer × Bool

/-- The inner step of R171 for a set bit: XOR the pixel in column `x`, row `y`, noting a collision. A column above 63
or a row above 31 is dropped (R173). -/
def flipPixel (d : Drawing) (x y : Nat) : Drawing :=
  if h : x < 64 ∧ y < 32 then
    let on := d.1[y][x]
    (d.1.set y (d.1[y].set x (!on)), d.2 || on)
  else d

/-- One row of a sprite: bit `7 - b` of the byte belongs to column `x0 + b`, so the most significant bit is the
leftmost pixel (R171, R172; decision D15). -/
def drawRow (d : Drawing) (x0 y : Nat) (row : Byte) : Drawing :=
  (List.range 8).foldl (fun d b => if row.getLsbD (7 - b) then flipPixel d (x0 + b) y else d) d

/-- The rows of a sprite, from row `y` downward (R171). -/
def drawRows (d : Drawing) (x0 y : Nat) : List Byte → Drawing
  | [] => d
  | row :: rest => drawRows (drawRow d x0 y row) x0 (y + 1) rest

/-- The whole sprite, the collision note cleared first (R171, R174). -/
def drawSprite (fb : Framebuffer) (x0 y0 : Nat) (rows : List Byte) : Drawing := drawRows (fb, false) x0 y0 rows

end Sys2Proof.Machine
end

