-- ==== Sys2Proof/Machine/Operands.lean ====
section
/-! DEFINITION. The operand forms of spec/30_encoding.md R73, the one data addressing mode of
spec/43_index_memory.md R157, the font address (R152), the decimal digits (R154) and the start of a sprite (R171). -/

namespace Sys2Proof.Machine

/-- The address operand `NNN`, widened with zeros (R73). -/
def addressOperand (nnn : Addr12) : Word := nnn.setWidth 16

/-- The effective address `I + k`, not reduced (R52, R157). -/
def effectiveAddress (s : State) (k : Nat) : Nat := s.iReg.toNat + k

/-- The number of registers `V0..Vx` of STORE_REGS and LOAD_REGS: X + 1 (R73). -/
def registerCount (x : RegIdx) : Nat := x.val + 1

/-- The address of the glyph of the low nibble: `5 * (Vx & 0xF) + FONT_BASE` (R152). -/
def fontAddress (vx : Byte) : Word := BitVec.ofNat 16 (5 * (vx &&& 0x0F).toNat + Config.fontBase.val)

/-- The start column of a sprite, `V[X] mod 64` (R171). -/
def spriteColumn (vx : Byte) : Nat := vx.toNat % 64

/-- The start row of a sprite, `V[Y] mod 32` (R171). -/
def spriteRow (vy : Byte) : Nat := vy.toNat % 32

/-- The loop of `Digits` in VARIABLE mode: put `v mod 10` in front and divide, until nothing is left (R154). The
first argument bounds the passes; a byte has at most three digits. -/
def digitLoop : Nat → Nat → List Byte → List Byte
  | 0, _, ds => ds
  | passes + 1, v, ds => if v = 0 then ds else digitLoop passes (v / 10) (BitVec.ofNat 8 (v % 10) :: ds)

/-- `Digits(v)`, most significant digit first, by `BCD_MODE` (R154; decision D11). -/
def digits (mode : BcdMode) (v : Byte) : List Byte :=
  match mode with
  | .variableLength => if v = 0 then [0] else digitLoop 3 v.toNat []
  | .fixed3 =>
    [BitVec.ofNat 8 (v.toNat / 100), BitVec.ofNat 8 (v.toNat / 10 % 10), BitVec.ofNat 8 (v.toNat % 10)]

end Sys2Proof.Machine
end

