-- ==== Sys2Proof/Machine/Display.lean ====
section
/-! DEFINITION. Clear and sprite draw (spec/44_display.md R170 to R175). -/

namespace Sys2Proof.Machine

/-- CLS: every pixel off (R170). -/
def execCls (s : State) : Result := .next (s.setFb clearedFramebuffer)

/-- DRAW: all N rows are range-checked and read, clipped or not; then the pixels, then VF (R171, R174; decisions
D14, D16). -/
def execDraw (x y : RegIdx) (n : RowCount) (s : State) : Result :=
  .next (match firstOutOfRange (effectiveAddress s 0) n.val with
    | some a => s.raiseExecute .memoryFault (some a) (.draw x y n)
    | none =>
      let d := drawSprite s.fb (spriteColumn (s.readV x)) (spriteRow (s.readV y))
        (readBytes s.mem (effectiveAddress s 0) n.val)
      (s.setFb d.1).writeV vf (collisionFlag d.2))

end Sys2Proof.Machine
end

