-- ==== Sys2Proof/Machine/Flow.lean ====
section
/-! DEFINITION. Control transfer (spec/41_flow.md R100 to R108). On entry `pc` is the fetch address plus 2 (R92). -/

namespace Sys2Proof.Machine

/-- JUMP (R101). -/
def execJump (nnn : Addr12) (s : State) : Result := .next (s.setPc (addressOperand nnn))

/-- JUMP_OFFSET: always V0, the sum not reduced modulo 4096 (R102). -/
def execJumpOffset (nnn : Addr12) (s : State) : Result :=
  .next (s.setPc (addressOperand nnn + (s.readV 0).setWidth 16))

/-- CALL for any `STACK_DEPTH`: the depth is checked before anything is written (R103, R203). -/
def execCallWith (depth : Nat) (nnn : Addr12) (s : State) : Result :=
  .next (if s.stack.length = depth then s.raiseExecute .stackOverflow none (.call nnn)
    else (s.push s.pc).setPc (addressOperand nnn))

/-- CALL with this spec's depth (R103; decision D8). -/
def execCall (nnn : Addr12) (s : State) : Result := execCallWith Config.stackDepth nnn s

/-- RETURN (R104). -/
def execReturn (ignoredX : Nibble) (s : State) : Result :=
  .next (match s.top with
    | none => s.raiseExecute .stackUnderflow none (.ret ignoredX)
    | some entry => s.dropTop.setPc entry)

/-- SKIP_EQ_NN (R105). -/
def execSkipEqNn (x : RegIdx) (nn : Byte) (s : State) : Result := .next (s.skipIf (s.readV x == nn))

/-- SKIP_NE_NN (R106). -/
def execSkipNeNn (x : RegIdx) (nn : Byte) (s : State) : Result := .next (s.skipIf (s.readV x != nn))

/-- SKIP_EQ_VY (R107). -/
def execSkipEqVy (x y : RegIdx) (s : State) : Result := .next (s.skipIf (s.readV x == s.readV y))

/-- SKIP_NE_VY (R108). -/
def execSkipNeVy (x y : RegIdx) (s : State) : Result := .next (s.skipIf (s.readV x != s.readV y))

end Sys2Proof.Machine
end

