-- ==== Sys2Proof/Machine/IndexMemory.lean ====
section
/-! DEFINITION. Index register, font, BCD, register store and load (spec/43_index_memory.md R150 to R157). Every
range check comes before the first write (R13, R203), and no instruction here changes `pc`. -/

namespace Sys2Proof.Machine

/-- SET_I (R150). -/
def execSetI (nnn : Addr12) (s : State) : Result := .next (s.setI (addressOperand nnn))

/-- ADD_I: 16-bit wrap, no flag (R151). -/
def execAddI (x : RegIdx) (s : State) : Result := .next (s.setI (s.iReg + (s.readV x).setWidth 16))

/-- FONT_CHAR (R152). -/
def execFontChar (x : RegIdx) (s : State) : Result := .next (s.setI (fontAddress (s.readV x)))

/-- Store bytes at `I`, `I + 1`, ... for the instruction `i`, or take a `MemoryFault` with nothing written: what BCD
and STORE_REGS share (R153, R155, R203). -/
def storeAtI (s : State) (bytes : List Byte) (i : Instr) : State :=
  match firstOutOfRange (effectiveAddress s 0) bytes.length with
  | some a => s.raiseExecute .memoryFault (some a) i
  | none => s.setMem (writeBytes s.mem (effectiveAddress s 0) bytes)

/-- BCD for either `BCD_MODE`: the digits of Vx at `I` (R153, R154). -/
def execBcdWith (mode : BcdMode) (x : RegIdx) (s : State) : Result :=
  .next (storeAtI s (digits mode (s.readV x)) (.bcd x))

/-- BCD in this spec's mode (R153, R154; decision D11). -/
def execBcd (x : RegIdx) (s : State) : Result := execBcdWith Config.bcdMode x s

/-- STORE_REGS: V0..Vx; `I` is not changed (R155; decision D20). -/
def execStoreRegs (x : RegIdx) (s : State) : Result :=
  .next (storeAtI s (s.firstRegisters (registerCount x)) (.storeRegs x))

/-- LOAD_REGS: V0..Vx; `I` is not changed (R156; decision D20). -/
def execLoadRegs (x : RegIdx) (s : State) : Result :=
  .next (match firstOutOfRange (effectiveAddress s 0) (registerCount x) with
    | some a => s.raiseExecute .memoryFault (some a) (.loadRegs x)
    | none => s.loadRegisters (readBytes s.mem (effectiveAddress s 0) (registerCount x)))

end Sys2Proof.Machine
end

