-- ==== Sys2Proof/Machine/InputTimers.lean ====
section
/-! DEFINITION. Key input and timer instructions (spec/45_input_timers.md R185 to R192). The key sample is the one this
cycle has taken from the `keys` port (R222). -/

namespace Sys2Proof.Machine

/-- Is the key whose code is this byte in the sample? The whole byte is compared, so a value above 0xF is in none
(R185; decision D23). -/
def keyPressed (s : State) (code : Byte) : Bool := s.keys.any (fun k => k.setWidth 8 == code)

/-- SKIP_KEY: at most one skip (R185; decision D10). -/
def execSkipKey (x : RegIdx) (s : State) : Result := .next (s.skipIf (keyPressed s (s.readV x)))

/-- SKIP_NOT_KEY: at most one skip, the complement of SKIP_KEY (R186; decision D10). -/
def execSkipNotKey (x : RegIdx) (s : State) : Result := .next (s.skipIf (!keyPressed s (s.readV x)))

/-- GET_KEY: with no key, `pc <- pc - 2`, so that the same word is fetched again; else the first reported key
(R187, R188; decision D22). -/
def execGetKey (x : RegIdx) (s : State) : Result :=
  .next (match s.keys with
    | [] => s.setPc (s.pc - 2)
    | k :: _ => s.writeV x (k.setWidth 8))

/-- GET_DELAY (R190). -/
def execGetDelay (x : RegIdx) (s : State) : Result := .next (s.writeV x s.dt)

/-- SET_DELAY (R191). -/
def execSetDelay (x : RegIdx) (s : State) : Result := .next (s.setDt (s.readV x))

/-- SET_SOUND (R192). -/
def execSetSound (x : RegIdx) (s : State) : Result := .next (s.setSt (s.readV x))

end Sys2Proof.Machine
end

