-- ==== Sys2Proof/Machine/Dispatch.lean ====
section
/-! DEFINITION. The execute phase: one arm per instruction, each a call of its meaning (spec/40_cycle.md R94). -/

namespace Sys2Proof.Machine

def exec (i : Instr) (s : State) : Host.Outcome State Fault Refusal :=
  match i with
  | .cls _ => Sys2Proof.Machine.execCls s
  | .ret ignoredX => Sys2Proof.Machine.execReturn ignoredX s
  | .jump nnn => Sys2Proof.Machine.execJump nnn s
  | .call nnn => Sys2Proof.Machine.execCall nnn s
  | .skipEqNn x nn => Sys2Proof.Machine.execSkipEqNn x nn s
  | .skipNeNn x nn => Sys2Proof.Machine.execSkipNeNn x nn s
  | .skipEqVy x y _ => Sys2Proof.Machine.execSkipEqVy x y s
  | .setVx x nn => Sys2Proof.Machine.execSetVx x nn s
  | .addVx x nn => Sys2Proof.Machine.execAddVx x nn s
  | .setReg x y => Sys2Proof.Machine.execSetReg x y s
  | .orReg x y => Sys2Proof.Machine.execOrReg x y s
  | .andReg x y => Sys2Proof.Machine.execAndReg x y s
  | .xorReg x y => Sys2Proof.Machine.execXorReg x y s
  | .addReg x y => Sys2Proof.Machine.execAddReg x y s
  | .subVx x y => Sys2Proof.Machine.execSubVx x y s
  | .shiftRight x _ => Sys2Proof.Machine.execShiftRight x s
  | .subVy x y => Sys2Proof.Machine.execSubVy x y s
  | .shiftLeft x _ => Sys2Proof.Machine.execShiftLeft x s
  | .skipNeVy x y _ => Sys2Proof.Machine.execSkipNeVy x y s
  | .setI nnn => Sys2Proof.Machine.execSetI nnn s
  | .jumpOffset nnn => Sys2Proof.Machine.execJumpOffset nnn s
  | .rand x nn => Sys2Proof.Machine.execRand x nn s
  | .draw x y n => Sys2Proof.Machine.execDraw x y n s
  | .skipKey x => Sys2Proof.Machine.execSkipKey x s
  | .skipNotKey x => Sys2Proof.Machine.execSkipNotKey x s
  | .getDelay x => Sys2Proof.Machine.execGetDelay x s
  | .getKey x => Sys2Proof.Machine.execGetKey x s
  | .setDelay x => Sys2Proof.Machine.execSetDelay x s
  | .setSound x => Sys2Proof.Machine.execSetSound x s
  | .addI x => Sys2Proof.Machine.execAddI x s
  | .fontChar x => Sys2Proof.Machine.execFontChar x s
  | .bcd x => Sys2Proof.Machine.execBcd x s
  | .storeRegs x => Sys2Proof.Machine.execStoreRegs x s
  | .loadRegs x => Sys2Proof.Machine.execLoadRegs x s

end Sys2Proof.Machine
end

