-- ==== Sys2Proof/Machine/Cycle.lean ====
section
/-! DEFINITION. The instruction cycle: fetch, advance, decode, execute (spec/40_cycle.md R90 to R96). -/

namespace Sys2Proof.Machine

/-- The fetch: two byte reads at `pc` and `pc + 1`, high byte first. The error is the address of the `MemoryFault`,
and it is taken before `pc` advances (R91, R55). -/
def fetch (s : State) : Except Nat Word :=
  match memRead s.mem s.pc.toNat with
  | .error a => .error a
  | .ok hi =>
    match memRead s.mem (s.pc.toNat + 1) with
    | .error a => .error a
    | .ok lo => .ok (wordOfBytes hi lo)

/-- Decode and execute the word fetched at `pc`, the execute phase given; an unknown word changes nothing but `pc` and
the event stream (R92 to R95). -/
def executeWordBy (execute : Instr → State → Result) (w : Word) (s : State) : Result :=
  match decodeWord w with
  | .ok i => execute i s.advance
  | .error _ => .next (s.advance.reportUnknown w s.pc)

/-- Decode and execute the word fetched at `pc` with this spec's parameters. -/
def executeWord (w : Word) (s : State) : Result := executeWordBy exec w s

/-- Does the next cycle execute one of the three key instructions, the only ones that sample the `keys` port (R208,
R222)? -/
def samplesKeys (s : State) : Bool :=
  match fetch s with
  | .error _ => false
  | .ok w =>
    match decodeWord w with
    | .ok (.skipKey _) | .ok (.skipNotKey _) | .ok (.getKey _) => true
    | _ => false

/-- `InstructionCycle`, the execute phase given, for a state that is RUNNING and has taken its port samples (R96). -/
def instructionCycleBy (execute : Instr → State → Result) (s : State) : Result :=
  match fetch s with
  | .error a => .next (s.raiseFetch a)
  | .ok w => executeWordBy execute w s

/-- `InstructionCycle` with this spec's parameters (R96). -/
def instructionCycle (s : State) : Result := instructionCycleBy exec s

end Sys2Proof.Machine
end

