-- ==== Sys2Proof/Machine/Timer.lean ====
section
/-! DEFINITION. The timer agent (spec/60_exceptions.md R211 to R214). -/

namespace Sys2Proof.Machine

/-- One step of a countdown, clamped at 0 (R29, R212). -/
def countDown (b : Byte) : Byte := if 0 < b.toNat then b - 1 else b

/-- `TimerTick` for either value of `SOUND_TIMER_DECREMENTS` (R212). -/
def timerTickWith (soundDecrements : Bool) (s : State) : State :=
  (s.setDt (countDown s.dt)).setSt (if soundDecrements then countDown s.st else s.st)

/-- `TimerTick` with this spec's value (R212; decision D9). It reads and writes `DT` and `ST` alone. -/
def timerTick (s : State) : State := timerTickWith Config.soundTimerDecrements s

end Sys2Proof.Machine
end

