-- ==== Sys2Proof/Machine/Parameters.lean ====
section
/-! DEFINITION. The parameters of spec/00_scope.md R7 that change what a step does, as one argument, and the execute phase
and the timer tick for any value of them (R8). `exec` and `timerTick` are those with this spec's values. -/

namespace Sys2Proof.Machine

/-- A choice of the parameters that R8 names, but for `FONT_BASE`, which `Config.fontBase` leaves open. -/
structure Parameters where
  /-- `FONT_GLYPHS` (R7, R60; decision D13). -/
  font : FontTable
  /-- `STACK_DEPTH` (R7, R31; decision D8). -/
  stackDepth : Nat
  /-- `BCD_MODE` (R7, R154; decision D11). -/
  bcdMode : BcdMode
  /-- `SOUND_TIMER_DECREMENTS` (R7, R30; decision D9). -/
  soundTimerDecrements : Bool
deriving DecidableEq, Repr

/-- This spec's values (R7). -/
def specParameters : Parameters :=
  { font := defaultFont
    stackDepth := Config.stackDepth
    bcdMode := Config.bcdMode
    soundTimerDecrements := Config.soundTimerDecrements }

/-- The execute phase for any parameters: they change BCD and CALL alone; the font is memory (R8). -/
def execWith (p : Parameters) (i : Instr) (s : State) : Result :=
  match i with
  | .bcd x => execBcdWith p.bcdMode x s
  | .call nnn => execCallWith p.stackDepth nnn s
  | _ => exec i s

end Sys2Proof.Machine
end

