-- ==== Sys2Proof/WellFormed.lean ====
section
/-! DEFINITION. What must hold of a term before the machine takes it. An instruction needs no check: each operand of
`Instr` has the width of its encoding field by its TYPE (R71, R73), so every term is the meaning of one word. What
the host delivers does: a key code is 0x0..0xF (R227), and a ROM image fits the program area (R243). -/

namespace Sys2Proof.Machine

/-- A key code the contract allows: 0x0..0xF (R222, R227). -/
def keyCodeWellFormed (c : Byte) : Bool := c.toNat ≤ 0xF

/-- A key sample the contract allows: no code above 0xF (R227; U13). -/
def keySampleWellFormed (codes : List Byte) : Bool := codes.all keyCodeWellFormed

/-- A ROM image that fits 0x200..0xFFF (R243). -/
def imageWellFormed (image : List Byte) : Bool := image.length ≤ Config.maxRomSize

/-- A host event within the contract and within the load's size: what a careful host delivers (R227). -/
def eventWellFormed (e : HostEvent) : Bool :=
  match e with
  | .cycleStrobe codes _ => keySampleWellFormed codes
  | .romLoad image => imageWellFormed image
  | .tickStrobe | .stop | .start | .reset => true

end Sys2Proof.Machine
end

