-- ==== Sys2Proof/Machine/Ports.lean ====
section
/-! DEFINITION. The ports (spec/60_exceptions.md R220 to R227): what each host event does (R206, R226,
spec/70_reset_and_hazards.md R240 to R243), what moves when no event is queued (R217), and the outputs. -/

namespace Sys2Proof.Machine

/-! ### Inputs -/

/-- The key codes of a sample within the contract, as the 4-bit codes the core sees (R220). -/
def keyCodes (codes : List Byte) : List Nibble := codes.map (fun c => c.setWidth 4)

/-- `cycle_strobe`: an instruction cycle, enabled only when RUNNING (R96, R206, R226, R241). A code above 0xF is
refused when the cycle samples the keys (R222, R227; U13). -/
def onCycleStrobe (execute : Instr → State → Result) (codes : List Byte) (randByte : Byte) (s : State) : Result :=
  if s.runState = .running then
    if keySampleWellFormed codes || !samplesKeys s then
      instructionCycleBy execute (s.samplePorts (keyCodes codes) randByte)
    else .refused .keyCodeOutOfContract
  else .next s

/-- `tick_strobe`: a timer tick, enabled only when RUNNING (R206, R212, R226, R241). -/
def onTickStrobe (tick : State → State) (s : State) : Result :=
  .next (if s.runState = .running then tick s else s)

/-- `stop`: the VM stops between two steps (R226). A VM in HALTED_FAULT holds its state (R206; log entry 11). -/
def onStop (s : State) : Result :=
  .next (if s.runState = .haltedFault then s else s.setRunState .stopped)

/-- `start`: leave READY and begin running (R242). Outside READY there is nothing to leave (log entry 10). -/
def onStart (s : State) : Result :=
  .next (if s.runState = .ready then s.setRunState .running else s)

/-- `reset`: re-initialize the VM (R240; log entry 12). -/
def onReset (glyphs : FontTable) (s : State) : Result := .next (s.reinitialize glyphs)

/-- The ROM load: the length is checked before any byte is written (R243, R207; decision D35). -/
def loadImage (image : List Byte) (s : State) : State :=
  if image.length > Config.maxRomSize then s.raiseRomTooLarge image.length
  else s.setMem (writeBytes s.mem Config.programBase image)

/-- `rom_load`: only in READY (R243); at another time it is outside the host's contract (R227; U23). -/
def onRomLoad (image : List Byte) (s : State) : Result :=
  if s.runState = .ready then .next (loadImage image s) else .refused .loadOutsideReady

/-- What one event at the input ports does, the execute phase, the timer tick and the font given. -/
def handleEventBy (execute : Instr → State → Result) (tick : State → State) (glyphs : FontTable) (e : HostEvent)
    (s : State) : Result :=
  match e with
  | .cycleStrobe codes randByte => onCycleStrobe execute codes randByte s
  | .tickStrobe => onTickStrobe tick s
  | .stop => onStop s
  | .start => onStart s
  | .reset => onReset glyphs s
  | .romLoad image => onRomLoad image s

/-- What one event does, for any parameters (R7, R8). -/
def handleEventWith (p : Parameters) (e : HostEvent) (s : State) : Result :=
  handleEventBy (execWith p) (timerTickWith p.soundTimerDecrements) p.font e s

/-- What one event does, with this spec's parameters. -/
def handleEvent (e : HostEvent) (s : State) : Result := handleEventBy exec timerTick defaultFont e s

/-- The event that is a step of an agent (R215). -/
def agentEvent (a : Agent) (keys : List Nibble) (randByte : Byte) : HostEvent :=
  match a with
  | .engine => .cycleStrobe (keys.map (fun k => k.setWidth 8)) randByte
  | .timer => .tickStrobe
  | .hostStop => .stop

/-- The moves of round `k`: free ones, then one of each agent, so that neither is held up for ever (R217, R219). -/
def movesOf (k : Nat) : List Agent := Config.freeMoves k ++ [.engine, .timer]

/-- Move `n` counted from the start of round `k`. The first argument bounds the rounds passed; a round is not empty. -/
def moveFrom : Nat → Nat → Nat → Agent
  | 0, _, _ => .engine
  | rounds + 1, k, n =>
    if n < (movesOf k).length then (movesOf k).getD n .engine else moveFrom rounds (k + 1) (n - (movesOf k).length)

/-- Who makes drawn move `n`: the rounds one after the other (R217, R219; log entry 6). -/
def nextAgent (n : Nat) : Agent := moveFrom (n + 1) 0 n

/-- With no event queued, who moves and what the ports hold are free values (R217, R221, R222; log entry 6). -/
def drawnEvent (n : Nat) : HostEvent :=
  agentEvent (nextAgent n) (Config.keySample n) (Config.randByte n)

/-- The event the next step takes: the first of the queue; with none queued, a drawn one. -/
def nextEvent (s : State) : HostEvent :=
  match s.inputs with
  | e :: _ => e
  | [] => drawnEvent s.draws

/-- The state with that event taken. -/
def dropEvent (s : State) : State :=
  match s.inputs with
  | _ :: rest => { s with inputs := rest }
  | [] => { s with draws := s.draws + 1 }

/-- Take the next event and handle it, for any parameters: the step of a machine with those parameters (R7). -/
def takeEventWith (p : Parameters) (s : State) : Result := handleEventWith p (nextEvent s) (dropEvent s)

/-- Take the next event and handle it, with this spec's parameters. -/
def takeEvent (s : State) : Result := handleEvent (nextEvent s) (dropEvent s)

/-! ### Outputs -/

/-- `framebuffer`: the pixel grid, as it stands between two steps (R223). -/
def framebufferOut (s : State) : Framebuffer := s.fb

/-- `sound_active` (R224). -/
def soundActive (s : State) : Bool := s.st != 0

/-- The code of a fatal error (R200). -/
def FaultKind.code (k : FaultKind) : Nat :=
  match k with
  | .memoryFault => 1
  | .stackUnderflow => 2
  | .stackOverflow => 3
  | .romTooLarge => 4

/-- The code of the non-fatal `UnknownInstruction` (R200). -/
def unknownInstructionCode : Nat := 5

/-- What the `status` port carries: `run_state`, the error code (0 for none) and the fault record (R225). -/
structure Status where
  runState : RunState
  code     : Nat
  fault    : Option FaultRecord
deriving DecidableEq, Repr

/-- `status`: the record is shown when `run_state` is HALTED_FAULT (R225). -/
def statusOut (s : State) : Status :=
  if s.runState = .haltedFault then
    { runState := s.runState, code := (s.fault.map (fun r => r.kind.code)).getD 0, fault := s.fault }
  else { runState := s.runState, code := 0, fault := none }

/-- `unknown_event`: the records in the order they occurred (R225). -/
def unknownEventOut (s : State) : List UnknownRecord := s.unknownEvents

end Sys2Proof.Machine
end

