-- ==== Sys2Proof/Machine/Step.lean ====
section
/-! DEFINITION. One step of the machine: one event at its ports, or one step of an agent (spec/60_exceptions.md R215,
R216), and how the host places a word to be run. -/

namespace Sys2Proof.Machine

/-- One atomic step (R216). -/
def step (s : State) : Host.Outcome State Fault Refusal := takeEvent s

/-- `s` RUNNING, with a table word stored where the next cycle fetches and a cycle strobe next in the queue, whose
samples are those the ports hold in `s`: the very next step runs that instruction. It stands for the host's load and
start (log entry 8). A word that does not fit below 0x1000 is not stored; its fetch faults. -/
def State.withFetchWord (s : State) (nbits w : Nat) : State :=
  { s with
    mem := writeBytes s.mem s.pc.toNat (bytesOfWord (BitVec.ofNat 16 (w % 2 ^ nbits)))
    runState := .running
    inputs := agentEvent .engine s.keys s.rand :: s.inputs }

end Sys2Proof.Machine
end

