-- ==== Sys2Proof/Safety.lean ====
section
/-! DEFINITION. What counts as a sound state, a safe run and the end of a run, in the terms the statements use
(spec/10_state.md R27, R31, spec/60_exceptions.md R202, R206, spec/70_reset_and_hazards.md R265). -/

namespace Sys2Proof.Machine

/-- The memory is in its canonical form. -/
def State.memoryCanonical (s : State) : Prop := s.mem.wf = true

/-- `pc` and the stack stay in the ranges of R27 and R31: `pc` at most 0x10FE, at most 16 entries, each at most
0x1000. -/
def State.addressesBounded (s : State) : Prop :=
  s.pc.toNat ≤ 0x10FE ∧ s.stack.length ≤ Config.stackDepth ∧ ∀ e ∈ s.stack, e.toNat ≤ 0x1000

/-- There is a fault record exactly when the VM is in HALTED_FAULT (R35, R202, R206). -/
def State.faultRecorded (s : State) : Prop := s.runState = .haltedFault ↔ s.fault.isSome

/-- Every reported word is an unknown one (R95). -/
def State.eventsUnknown (s : State) : Prop :=
  ∀ e ∈ s.unknownEvents, ∃ err, decodeWord e.word = .error err

/-- What every state of a run satisfies. -/
structure State.Sound (s : State) : Prop where
  memory    : s.memoryCanonical
  addresses : s.addressesBounded
  fault     : s.faultRecorded
  events    : s.eventsUnknown

/-- The next word at `pc` is a jump to `pc` itself, the HALT idiom (R84, R265). -/
def State.atHalt (s : State) : Prop :=
  ∃ nnn, fetch s = .ok (encode (.jump nnn)) ∧ addressOperand nnn = s.pc

/-- A run of the model is over (R265). -/
def State.runOver (s : State) : Prop :=
  s.runState = .stopped ∨ (s.runState = .running ∧ s.atHalt) ∨ s.runState = .haltedFault

/-- A run that has not failed: HALTED_FAULT is never a successful end (R265). -/
def State.safe (s : State) : Prop := s.runState ≠ .haltedFault

/-- An endless run: each state steps to the next (R217). -/
def IsRun (run : Nat → State) : Prop := ∀ n, step (run n) = .next (run (n + 1))

/-- A run in which both agents keep moving: after any step there is a later one of the engine and a later one of the
timer (R219). -/
structure IsFair (run : Nat → State) : Prop where
  engine : ∀ n, ∃ m, n ≤ m ∧ ∃ codes r, nextEvent (run m) = .cycleStrobe codes r
  timer  : ∀ n, ∃ m, n ≤ m ∧ nextEvent (run m) = .tickStrobe

/-- The instruction word that memory holds at an address, the byte at the lower address the more significant (R55). -/
def wordAt (m : Memory) (a : Nat) : Word := wordOfBytes (m.readByte a) (m.readByte (a + 1))

/-- May the instruction change this general register? The "writes" column of R21. -/
def mayWriteV (i : Instr) (r : RegIdx) : Bool :=
  match i with
  | .setVx x _ | .addVx x _ | .setReg x _ | .orReg x _ | .andReg x _ | .xorReg x _ | .rand x _ => r == x
  | .getDelay x | .getKey x => r == x
  | .addReg x _ | .subVx x _ | .subVy x _ | .shiftRight x _ | .shiftLeft x _ => r == x || r == 15
  | .draw _ _ _ => r == 15
  | .loadRegs x => r ≤ x
  | .skipEqNn _ _ | .skipNeNn _ _ | .skipEqVy _ _ _ | .skipNeVy _ _ _ | .skipKey _ | .skipNotKey _ => false
  | .cls _ | .ret _ | .jump _ | .call _ | .jumpOffset _ | .setI _ | .addI _ | .fontChar _ => false
  | .setDelay _ | .setSound _ | .bcd _ | .storeRegs _ => false

/-- How many bytes the instruction stores, at `I`, `I + 1`, ... (R51). -/
def storeCount (i : Instr) (s : State) : Nat :=
  match i with
  | .bcd x => (digits .variableLength s.v[x]).length
  | .storeRegs x => x.val + 1
  | _ => 0

/-- The fatal error the instruction raises in its execute phase, if any (R204). -/
def raisedBy (i : Instr) (s : State) : Option FaultKind :=
  match i with
  | .call _ => if s.stack.length = 16 then some .stackOverflow else none
  | .ret _ => if s.stack.length = 0 then some .stackUnderflow else none
  | .draw _ _ n => if 1 ≤ n.val ∧ s.iReg.toNat + n.val - 1 > 0xFFF then some .memoryFault else none
  | .bcd x =>
    if s.iReg.toNat + (digits .variableLength s.v[x]).length - 1 > 0xFFF then some .memoryFault else none
  | .storeRegs x | .loadRegs x => if s.iReg.toNat + x.val > 0xFFF then some .memoryFault else none
  | _ => none

/-- Is it one of the three instructions that sample the keys (R208, R222)? -/
def isKeyInstr (i : Instr) : Bool :=
  match i with
  | .skipKey _ | .skipNotKey _ | .getKey _ => true
  | _ => false

/-- Is it RAND, the one instruction that reads the random byte (R221)? -/
def isRand (i : Instr) : Bool :=
  match i with
  | .rand _ _ => true
  | _ => false

/-- Does the sprite `rows`, its top left corner at column `x0` and row `y0`, have a set bit at column `x` and row `y`?
Row byte `y - y0`, whose bit 7 is the leftmost pixel (R171, R172). The closed form of the loops of R171. -/
def spriteBit (rows : List Byte) (x0 y0 x y : Nat) : Bool :=
  decide (x0 ≤ x ∧ x < x0 + 8 ∧ y0 ≤ y ∧ y < y0 + rows.length) && (rows.getD (y - y0) 0).getLsbD (7 - (x - x0))

end Sys2Proof.Machine
end

