-- ==== Sys2Proof/Certificates/Slice0/Obligations.lean ====
section
/-! DEFINITION. The statements for the provers. Each docstring names the rules of spec/ it formalises, or the sections it
rests on. A fault record's word is `encode i`, the word fetched (every word is the encoding of what it decodes to). -/

open Sys2Proof Sys2Proof.Machine

/-- Decoding the encoding of any instruction gives that instruction back (30_encoding.md section 3, 20_memory.md
section 2). -/
def Obligations.DecodeOfEncodeGivesTheInstruction : Prop :=
  ∀ (i : Instr) (rest : List Byte), decode (encodeBytes i ++ rest) = .ok (i, rest)

/-- Encoding what a word decodes to gives the word back, ignored bits included (30_encoding.md section 3). That the
ignored bits come back is the model's choice (log entry 21); the spec only says that the core ignores them. -/
def Obligations.EncodeOfDecodeGivesTheWord : Prop :=
  ∀ (w : Word) (i : Instr), decodeWord w = .ok i → encode i = w

/-- A word decodes to an instruction exactly when one opcode-table row selects it (40_cycle.md section 1,
30_encoding.md section 4). -/
def Obligations.EveryWordHasItsOneTableRowOrNone : Prop :=
  (∀ (w : Word) (i : Instr), decodeWord w = .ok i →
    rowSelects (rowOf i) w = true ∧ ∀ j : Instr, rowSelects (rowOf j) w = true → rowOf j = rowOf i) ∧
  (∀ (w : Word) (e : DecodeError), decodeWord w = .error e → ∀ j : Instr, rowSelects (rowOf j) w = false)

/-- The unknown words are exactly those of families 0, 8, E and F that no sub-opcode selects (30_encoding.md section
4). -/
def Obligations.UnknownWordsAreThoseOfTheFourFamilies : Prop :=
  ∀ w : Word, (∃ e, decodeWord w = .error e) ↔
    ((fields w).op = 0x0 ∧ (fields w).nn ≠ 0xE0 ∧ (fields w).nn ≠ 0xEE) ∨
    ((fields w).op = 0x8 ∧ (fields w).n ∈ ([0x8, 0x9, 0xA, 0xB, 0xC, 0xD, 0xF] : List Nibble)) ∨
    ((fields w).op = 0xE ∧ (fields w).nn ≠ 0x9E ∧ (fields w).nn ≠ 0xA1) ∨
    ((fields w).op = 0xF ∧
      (fields w).nn ∉ ([0x07, 0x0A, 0x15, 0x18, 0x1E, 0x29, 0x33, 0x55, 0x65] : List Byte))

/-- The six decoded fields are the shifts and masks of the word, and they overlap as stated (R71). -/
def Obligations.FieldsAreTheShiftedAndMaskedWord : Prop :=
  ∀ w : Word,
    (fields w).op.setWidth 16 = (w >>> 12) &&& 0xF ∧
    (fields w).x.setWidth 16 = (w >>> 8) &&& 0xF ∧
    (fields w).y.setWidth 16 = (w >>> 4) &&& 0xF ∧
    (fields w).n.setWidth 16 = w &&& 0xF ∧
    (fields w).nn.setWidth 16 = w &&& 0xFF ∧
    (fields w).nnn.setWidth 16 = w &&& 0xFFF ∧
    (fields w).nn = ((fields w).y.setWidth 8 <<< 4) ||| (fields w).n.setWidth 8 ∧
    (fields w).nnn = ((fields w).x.setWidth 12 <<< 8) ||| (fields w).nn.setWidth 12

/-- Words written out in the spec's examples decode to the instructions the spec names (30_encoding.md section 6,
95_test_vectors.md sections 1 and 2). -/
def Obligations.WrittenOutWordsDecodeAsTheSpecSays : Prop :=
  fields 0x00E0 = ⟨0x0, 0x0, 0xE, 0x0, 0xE0, 0x0E0⟩ ∧
  fields 0x1228 = ⟨0x1, 0x2, 0x2, 0x8, 0x28, 0x228⟩ ∧
  decodeWord 0x03E0 = .ok (.cls 3) ∧ decodeWord 0x05EE = .ok (.ret 5) ∧
  decodeWord 0x2300 = .ok (.call 0x300) ∧ decodeWord 0x5123 = .ok (.skipEqVy 1 2 3) ∧
  decodeWord 0x730A = .ok (.addVx 3 0x0A) ∧ decodeWord 0x8014 = .ok (.addReg 0 1) ∧
  decodeWord 0x801E = .ok (.shiftLeft 0 1) ∧ decodeWord 0xBFFF = .ok (.jumpOffset 0xFFF) ∧
  decodeWord 0xD015 = .ok (.draw 0 1 5) ∧ decodeWord 0xE59E = .ok (.skipKey 5) ∧
  decodeWord 0xF30A = .ok (.getKey 3) ∧ decodeWord 0xFF65 = .ok (.loadRegs 15) ∧
  decodeWord 0x8008 = .error (.unknown8 0x8008)

/-- A byte access inside 0x000..0xFFF reads or writes that byte alone; outside it fails with its address (20_memory.md
section 1). Rests on the model's choice of log entry 18. -/
def Obligations.AccessInsideReadsAndWritesOneByte : Prop :=
  ∀ (m : Memory) (a : Nat) (v : Byte), m.wf = true →
    (a ≤ 0xFFF → memRead m a = .ok (m.readByte a) ∧
      ∃ m', memWrite m a v = .ok m' ∧ m'.wf = true ∧
        memRead m' a = .ok v ∧ ∀ b, b ≠ a → memRead m' b = memRead m b) ∧
    (0xFFF < a → memRead m a = .error a ∧ memWrite m a v = .error a)

/-- Two canonical memories that read alike at every address are the same data (20_memory.md section 1). Rests on the
model's choice of log entry 18. -/
def Obligations.CanonicalMemoriesThatReadAlikeAreEqual : Prop :=
  ∀ m n : Memory, m.wf = true → n.wf = true → (∀ a, m.readByte a = n.readByte a) → m = n

/-- The fetch reads the high byte at pc and the low byte at pc + 1, or halts the VM with pc unmoved (R91). -/
def Obligations.FetchReadsTwoBytesOrFaultsBeforeTheAdvance : Prop :=
  (∀ s : State, s.pc.toNat + 1 ≤ 0xFFF →
    fetch s = .ok (((s.mem.readByte s.pc.toNat).setWidth 16 <<< 8) |||
      (s.mem.readByte (s.pc.toNat + 1)).setWidth 16)) ∧
  (∀ (s : State) (codes : List Byte) (r : Byte) (rest : List HostEvent) (bad : Nat),
    s.runState = .running → s.inputs = .cycleStrobe codes r :: rest →
    ((0xFFF < s.pc.toNat ∧ bad = s.pc.toNat) ∨ (s.pc.toNat = 0xFFF ∧ bad = 0x1000)) →
    step s = .next { s with
      runState := .haltedFault
      fault := some { kind := .memoryFault, addr := some bad, pcAt := some s.pc, word := none, length := none }
      keys := codes.map (fun c => c.setWidth 4), rand := r, inputs := rest })

/-- A step whose bytes at pc decode to an instruction is exec of that instruction with pc advanced by 2 (40_cycle.md
section 1, 60_exceptions.md section 5). -/
def Obligations.StepRunsTheDecodedInstruction : Prop :=
  ∀ (s : State) (codes : List Byte) (r : Byte) (rest : List HostEvent) (i : Instr),
    s.runState = .running → s.inputs = .cycleStrobe codes r :: rest → s.pc.toNat + 1 ≤ 0xFFF →
    decode [s.mem.readByte s.pc.toNat, s.mem.readByte (s.pc.toNat + 1)] = .ok (i, []) →
    ((∀ c ∈ codes, c.toNat ≤ 0xF) ∨ isKeyInstr i = false) →
    step s = exec i { s with
      pc := s.pc + 2, keys := codes.map (fun c => c.setWidth 4), rand := r, inputs := rest }

/-- An unknown word moves pc by 2 and appends one record to the event stream, and changes nothing else (R95). -/
def Obligations.UnknownWordIsReportedAndSkipped : Prop :=
  ∀ (s : State) (codes : List Byte) (r : Byte) (rest : List HostEvent) (e : DecodeError),
    s.runState = .running → s.inputs = .cycleStrobe codes r :: rest → s.pc.toNat + 1 ≤ 0xFFF →
    decodeWord (wordAt s.mem s.pc.toNat) = .error e →
    step s = .next { s with
      pc := s.pc + 2
      unknownEvents := s.unknownEvents ++ [{ word := wordAt s.mem s.pc.toNat, addr := s.pc }]
      keys := codes.map (fun c => c.setWidth 4), rand := r, inputs := rest }

/-- A key code above 0xF under a key instruction, and a ROM load outside READY, are refused by name (60_exceptions.md
section 5, 93_implementation_defined.md part 1). Rests on the model's choice of log entry 14, log entry 15. -/
def Obligations.HostOutsideItsContractIsRefused : Prop :=
  (∀ (s : State) (codes : List Byte) (r : Byte) (rest : List HostEvent) (i : Instr),
    s.runState = .running → s.inputs = .cycleStrobe codes r :: rest → s.pc.toNat + 1 ≤ 0xFFF →
    decodeWord (wordAt s.mem s.pc.toNat) = .ok i → isKeyInstr i = true → (∃ c ∈ codes, 0xF < c.toNat) →
    step s = .refused .keyCodeOutOfContract) ∧
  (∀ (s : State) (image : List Byte) (rest : List HostEvent), s.runState ≠ .ready →
    s.inputs = .romLoad image :: rest → step s = .refused .loadOutsideReady)

/-- With no event queued the step is that of a cycle with some legal key sample, of a tick, or of a stop
(60_exceptions.md section 4). Rests on the model's choice of log entry 6. -/
def Obligations.NoQueuedEventMeansACycleATickOrAStop : Prop :=
  ∀ s : State, s.inputs = [] → ∃ e : HostEvent,
    ((∃ (codes : List Byte) (r : Byte), (∀ c ∈ codes, c.toNat ≤ 0xF) ∧ e = .cycleStrobe codes r) ∨
      e = .tickStrobe ∨ e = .stop) ∧
    step s = step { s with inputs := [e], draws := s.draws + 1 }

/-- A word placed by withFetchWord is the instruction the very next step runs (70_reset_and_hazards.md section 1).
Rests on the model's choice of log entry 8. -/
def Obligations.PlacedWordIsTheNextInstruction : Prop :=
  ∀ (s : State) (w : Nat) (i : Instr), s.mem.wf = true → s.pc.toNat + 1 ≤ 0xFFF → decodeTableWord 16 w = some i →
    step (s.withFetchWord 16 w) =
      exec i { s with
        mem := (s.withFetchWord 16 w).mem, runState := .running, pc := s.pc + 2 }

/-- The reset state, and a reset after a fatal error or a stop, give every piece of state its reset value (R240). -/
def Obligations.ResetGivesEveryPieceItsResetValue : Prop :=
  (∀ (s : State) (rest : List HostEvent), (s.runState = .haltedFault ∨ s.runState = .stopped) →
    s.inputs = .reset :: rest →
    step s = .next { State.reset with keys := s.keys, rand := s.rand, inputs := rest, draws := s.draws }) ∧
  (∀ x : RegIdx, State.reset.v[x] = 0) ∧ State.reset.iReg = 0 ∧ State.reset.dt = 0 ∧ State.reset.st = 0 ∧
  State.reset.stack = [] ∧ State.reset.pc = 0x200 ∧
  (∀ (x : Fin 64) (y : Fin 32), State.reset.fb[y][x] = false) ∧
  State.reset.fault = none ∧ State.reset.unknownEvents = [] ∧ State.reset.runState = .ready ∧
  (∀ j, j < 80 → State.reset.mem.readByte (Config.fontBase.val + j) = fontGlyphs.getD j 0) ∧
  (∀ a, a ≤ 0xFFF → (a < Config.fontBase.val ∨ Config.fontBase.val + 80 ≤ a) →
    State.reset.mem.readByte a = 0)

/-- In READY, HALTED_FAULT and STOPPED a cycle or tick strobe changes nothing (60_exceptions.md sections 1 and 5,
70_reset_and_hazards.md section 1). -/
def Obligations.StrobesDoNothingUnlessRunning : Prop :=
  ∀ (s : State) (e : HostEvent) (rest : List HostEvent), s.runState ≠ .running → s.inputs = e :: rest →
    (e = .tickStrobe ∨ ∃ codes r, e = .cycleStrobe codes r) → step s = .next { s with inputs := rest }

/-- A VM in HALTED_FAULT keeps every piece of its state until the host resets it (60_exceptions.md section 1). Rests
on the model's choice of log entry 11. -/
def Obligations.HaltedVmIsLeftOnlyByReset : Prop :=
  ∀ s t : State, s.runState = .haltedFault → s.inputs.head? ≠ some .reset → step s = .next t →
    t = { s with inputs := t.inputs, draws := t.draws }

/-- A stop makes a running VM STOPPED with its state kept, and only a reset leaves STOPPED (R226). -/
def Obligations.StopTakesEffectAndHoldsUntilReset : Prop :=
  (∀ (s : State) (rest : List HostEvent), s.runState = .running → s.inputs = .stop :: rest →
    step s = .next { s with runState := .stopped, inputs := rest }) ∧
  (∀ s t : State, s.runState = .stopped → s.inputs.head? ≠ some .reset → step s = .next t →
    t = { s with inputs := t.inputs, draws := t.draws })

/-- Start takes a READY VM to RUNNING, and the first fetch is at 0x200 (R242). -/
def Obligations.StartRunsFromTheResetVector : Prop :=
  (∀ (s : State) (rest : List HostEvent), s.runState = .ready → s.inputs = .start :: rest →
    step s = .next { s with runState := .running, inputs := rest }) ∧
  (∀ (m : Memory) (q : List HostEvent), ∃ t, step { State.reset with mem := m, inputs := .start :: q } = .next t ∧
    t.runState = .running ∧ t.pc = 0x200 ∧ fetch t = .ok (wordAt m 0x200))

/-- A ROM load in READY copies an image that fits to 0x200, and writes nothing of one that does not
(70_reset_and_hazards.md section 1, 60_exceptions.md section 1). Rests on the model's choice of log entry 9. -/
def Obligations.LoadCopiesTheImageOrWritesNothing : Prop :=
  ∀ (s : State) (image : List Byte) (rest : List HostEvent), s.runState = .ready → s.mem.wf = true →
    s.inputs = .romLoad image :: rest →
    (image.length ≤ 3584 → ∃ t, step s = .next t ∧ t = { s with mem := t.mem, inputs := rest } ∧
      (∀ k (h : k < image.length), t.mem.readByte (0x200 + k) = image[k]) ∧
      (∀ a, (a < 0x200 ∨ 0x200 + image.length ≤ a) → t.mem.readByte a = s.mem.readByte a)) ∧
    (3584 < image.length → ∃ t, step s = .next t ∧
      t = { s with
        runState := .haltedFault
        fault := some { kind := .romTooLarge, addr := none, pcAt := none, word := none, length := some image.length }
        inputs := rest } ∧
      ∀ q, step { t with inputs := .start :: q } = .next { t with inputs := q })

/-- With an empty image the core reports 1792 unknown words and then faults at 0x1000 (R245). -/
def Obligations.EmptyImageRunsOffTheEndOfMemory : Prop :=
  ∀ strobes : List HostEvent, strobes.length = 1793 → (∀ e ∈ strobes, ∃ codes r, e = .cycleStrobe codes r) →
    ∃ t u : State,
      Host.Core.run Sys2Proof.core 1794 { State.reset with inputs := .romLoad [] :: .start :: strobes } = .next t ∧
      t.unknownEvents =
        (List.range 1792).map (fun k => { word := 0x0000, addr := BitVec.ofNat 16 (0x200 + 2 * k) }) ∧
      t.pc = 0x1000 ∧ step t = .next u ∧ u.runState = .haltedFault ∧ u.pc = 0x1000 ∧
      u.fault = some
        { kind := .memoryFault, addr := some 0x1000, pcAt := some 0x1000, word := none, length := none }

/-- At a jump to itself a cycle changes nothing, and neither a cycle nor a tick leaves it (70_reset_and_hazards.md
section 4, 30_encoding.md section 5). -/
def Obligations.HaltIdiomChangesNothing : Prop :=
  ∀ (s : State) (rest : List HostEvent), s.runState = .running → s.atHalt →
    (∀ codes r, s.inputs = .cycleStrobe codes r :: rest → ∃ t, step s = .next t ∧ t.atHalt ∧
      t = { s with keys := codes.map (fun c => c.setWidth 4), rand := r, inputs := rest }) ∧
    (s.inputs = .tickStrobe :: rest → ∃ t, step s = .next t ∧ t.atHalt ∧
      t = { s with dt := t.dt, st := t.st, inputs := rest })

/-- A tick takes 1 off DT and ST, clamped at 0, in a running VM alone, and touches nothing else (R212). -/
def Obligations.TimerTickCountsBothTimersDown : Prop :=
  ∀ (s : State) (rest : List HostEvent), s.inputs = .tickStrobe :: rest →
    (s.runState = .running → step s = .next { s with
      dt := if 0 < s.dt.toNat then BitVec.ofNat 8 (s.dt.toNat - 1) else s.dt
      st := if 0 < s.st.toNat then BitVec.ofNat 8 (s.st.toNat - 1) else s.st
      inputs := rest }) ∧
    (s.runState ≠ .running → step s = .next { s with inputs := rest }) ∧
    timerTickWith false s = { s with
      dt := if 0 < s.dt.toNat then BitVec.ofNat 8 (s.dt.toNat - 1) else s.dt }

/-- After n ticks in a row DT is DT - n, clamped at 0 (60_exceptions.md section 3). -/
def Obligations.TicksCountDelayDownToZeroAndNoFurther : Prop :=
  ∀ (n : Nat) (s : State) (rest : List HostEvent), s.runState = .running →
    s.inputs = List.replicate n .tickStrobe ++ rest →
    ∃ t, Host.Core.run Sys2Proof.core n s = .next t ∧ t.dt.toNat = s.dt.toNat - n ∧ t.st.toNat = s.st.toNat - n ∧
      t = { s with dt := t.dt, st := t.st, inputs := rest }

/-- JUMP sets pc to NNN and JUMP_OFFSET to NNN + V0, and they change nothing else (R101, R102). -/
def Obligations.JumpsSetPc : Prop :=
  (∀ w : Word, w &&& 0xF000 = 0x1000 → decodeWord w = .ok (.jump (fields w).nnn)) ∧
  (∀ w : Word, w &&& 0xF000 = 0xB000 → decodeWord w = .ok (.jumpOffset (fields w).nnn)) ∧
  (∀ (nnn : Addr12) (s : State), exec (.jump nnn) s = .next { s with pc := nnn.setWidth 16 }) ∧
  (∀ (nnn : Addr12) (s : State),
    exec (.jumpOffset nnn) s = .next { s with pc := BitVec.ofNat 16 (nnn.toNat + s.v[0].toNat) } ∧
    nnn.toNat + s.v[0].toNat ≤ 0x10FE)

/-- CALL pushes the advanced pc and jumps to NNN; with 16 entries it overflows and pushes nothing (R103). -/
def Obligations.CallPushesTheReturnAddressOrOverflows : Prop :=
  (∀ w : Word, w &&& 0xF000 = 0x2000 → decodeWord w = .ok (.call (fields w).nnn)) ∧
  (∀ (nnn : Addr12) (s : State), s.stack.length ≠ 16 →
    exec (.call nnn) s = .next { s with stack := s.stack ++ [s.pc], pc := nnn.setWidth 16 }) ∧
  (∀ (nnn : Addr12) (s : State), s.stack.length = 16 →
    exec (.call nnn) s = .next { s with
      runState := .haltedFault
      fault := some { kind := .stackOverflow, addr := none, pcAt := some (s.pc - 2), word := some (encode (.call nnn)), length := none } })

/-- RETURN takes the most recently pushed entry into pc; with an empty stack it underflows (R104). -/
def Obligations.ReturnPopsTheLastCallOrUnderflows : Prop :=
  (∀ w : Word, w &&& 0xF0FF = 0x00EE → decodeWord w = .ok (.ret (fields w).x)) ∧
  (∀ (x : Nibble) (s : State) (below : List Word) (entry : Word), s.stack = below ++ [entry] →
    exec (.ret x) s = .next { s with stack := below, pc := entry }) ∧
  (∀ (x : Nibble) (s : State), s.stack = [] →
    exec (.ret x) s = .next { s with
      runState := .haltedFault
      fault := some { kind := .stackUnderflow, addr := none, pcAt := some (s.pc - 2), word := some (encode (.ret x)), length := none } })

/-- The four register skips move pc by 2 more exactly when their comparison holds, and change nothing else (R105,
R106, R107, R108). -/
def Obligations.RegisterSkipsMovePcByTwoMore : Prop :=
  (∀ w : Word, w &&& 0xF000 = 0x3000 → decodeWord w = .ok (.skipEqNn (regOf (fields w).x) (fields w).nn)) ∧
  (∀ w : Word, w &&& 0xF000 = 0x4000 → decodeWord w = .ok (.skipNeNn (regOf (fields w).x) (fields w).nn)) ∧
  (∀ w : Word, w &&& 0xF000 = 0x5000 →
    decodeWord w = .ok (.skipEqVy (regOf (fields w).x) (regOf (fields w).y) (fields w).n)) ∧
  (∀ w : Word, w &&& 0xF000 = 0x9000 →
    decodeWord w = .ok (.skipNeVy (regOf (fields w).x) (regOf (fields w).y) (fields w).n)) ∧
  (∀ (x y : RegIdx) (nn : Byte) (n : Nibble) (s : State),
    exec (.skipEqNn x nn) s = .next (if s.v[x] = nn then { s with pc := s.pc + 2 } else s) ∧
    exec (.skipNeNn x nn) s = .next (if s.v[x] = nn then s else { s with pc := s.pc + 2 }) ∧
    exec (.skipEqVy x y n) s = .next (if s.v[x] = s.v[y] then { s with pc := s.pc + 2 } else s) ∧
    exec (.skipNeVy x y n) s = .next (if s.v[x] = s.v[y] then s else { s with pc := s.pc + 2 }))

/-- SET_VX writes NN to Vx and ADD_VX adds NN modulo 256 with no flag; nothing else changes (R120, R121). -/
def Obligations.ImmediateFormsWriteVx : Prop :=
  (∀ w : Word, w &&& 0xF000 = 0x6000 → decodeWord w = .ok (.setVx (regOf (fields w).x) (fields w).nn)) ∧
  (∀ w : Word, w &&& 0xF000 = 0x7000 → decodeWord w = .ok (.addVx (regOf (fields w).x) (fields w).nn)) ∧
  (∀ (x : RegIdx) (nn : Byte) (s : State),
    exec (.setVx x nn) s = .next { s with v := s.v.set x nn } ∧
    exec (.addVx x nn) s = .next { s with v := s.v.set x (BitVec.ofNat 8 (s.v[x].toNat + nn.toNat)) })

/-- SET, OR, AND and XOR write Vx from Vx and Vy and leave every other register, VF included, alone (R122, R123, R124,
R125). -/
def Obligations.CopyAndLogicWriteVxAndNoFlag : Prop :=
  (∀ w : Word, w &&& 0xF00F = 0x8000 → decodeWord w = .ok (.setReg (regOf (fields w).x) (regOf (fields w).y))) ∧
  (∀ w : Word, w &&& 0xF00F = 0x8001 → decodeWord w = .ok (.orReg (regOf (fields w).x) (regOf (fields w).y))) ∧
  (∀ w : Word, w &&& 0xF00F = 0x8002 → decodeWord w = .ok (.andReg (regOf (fields w).x) (regOf (fields w).y))) ∧
  (∀ w : Word, w &&& 0xF00F = 0x8003 → decodeWord w = .ok (.xorReg (regOf (fields w).x) (regOf (fields w).y))) ∧
  (∀ (x y : RegIdx) (s : State),
    exec (.setReg x y) s = .next { s with v := s.v.set x s.v[y] } ∧
    exec (.orReg x y) s = .next { s with v := s.v.set x (s.v[x] ||| s.v[y]) } ∧
    exec (.andReg x y) s = .next { s with v := s.v.set x (s.v[x] &&& s.v[y]) } ∧
    exec (.xorReg x y) s = .next { s with v := s.v.set x (s.v[x] ^^^ s.v[y]) })

/-- ADD writes the wrapped sum to Vx and then the carry, set for sums above 255, to VF (R126). -/
def Obligations.AddWritesTheSumThenTheCarry : Prop :=
  (∀ w : Word, w &&& 0xF00F = 0x8004 → decodeWord w = .ok (.addReg (regOf (fields w).x) (regOf (fields w).y))) ∧
  (∀ (x y : RegIdx) (s : State), exec (.addReg x y) s = .next { s with
    v := (s.v.set x (BitVec.ofNat 8 (s.v[x].toNat + s.v[y].toNat))).set 15
      (if s.v[x].toNat + s.v[y].toNat > 255 then 1 else 0) })

/-- SUB_VX and SUB_VY write the wrapped difference to Vx and then the no-borrow flag to VF (R127, R129). -/
def Obligations.SubtractionsWriteTheDifferenceThenNoBorrow : Prop :=
  (∀ w : Word, w &&& 0xF00F = 0x8005 → decodeWord w = .ok (.subVx (regOf (fields w).x) (regOf (fields w).y))) ∧
  (∀ w : Word, w &&& 0xF00F = 0x8007 → decodeWord w = .ok (.subVy (regOf (fields w).x) (regOf (fields w).y))) ∧
  (∀ (x y : RegIdx) (s : State),
    exec (.subVx x y) s = .next { s with
      v := (s.v.set x (BitVec.ofNat 8 (s.v[x].toNat + 256 - s.v[y].toNat))).set 15
        (if s.v[x].toNat ≥ s.v[y].toNat then 1 else 0) } ∧
    exec (.subVy x y) s = .next { s with
      v := (s.v.set x (BitVec.ofNat 8 (s.v[y].toNat + 256 - s.v[x].toNat))).set 15
        (if s.v[y].toNat ≥ s.v[x].toNat then 1 else 0) })

/-- The shifts write the bit shifted out to VF and then the shifted Vx; Vy is not read (R128, R130). -/
def Obligations.ShiftsWriteTheBitShiftedOutThenTheResult : Prop :=
  (∀ w : Word, w &&& 0xF00F = 0x8006 → decodeWord w = .ok (.shiftRight (regOf (fields w).x) (fields w).y)) ∧
  (∀ w : Word, w &&& 0xF00F = 0x800E → decodeWord w = .ok (.shiftLeft (regOf (fields w).x) (fields w).y)) ∧
  (∀ (x : RegIdx) (y : Nibble) (s : State),
    exec (.shiftRight x y) s = .next { s with
      v := (s.v.set 15 (BitVec.ofNat 8 (s.v[x].toNat % 2))).set x (BitVec.ofNat 8 (s.v[x].toNat / 2)) } ∧
    exec (.shiftLeft x y) s = .next { s with
      v := (s.v.set 15 (BitVec.ofNat 8 (s.v[x].toNat / 128))).set x (BitVec.ofNat 8 (s.v[x].toNat * 2)) })

/-- RAND writes NN AND the sampled random byte to Vx, whatever the byte, and changes nothing else (R131). -/
def Obligations.RandMasksTheSampledByte : Prop :=
  (∀ w : Word, w &&& 0xF000 = 0xC000 → decodeWord w = .ok (.rand (regOf (fields w).x) (fields w).nn)) ∧
  (∀ (x : RegIdx) (nn r : Byte) (s : State), s.rand = r →
    exec (.rand x nn) s = .next { s with v := s.v.set x (nn &&& r) } ∧
    ∀ k, (nn &&& r).getLsbD k = true → nn.getLsbD k = true)

/-- SET_I, ADD_I and FONT_CHAR write I as NNN, I + Vx modulo 2^16 and the glyph address; nothing else changes (R150,
R151, R152). -/
def Obligations.IndexInstructionsWriteI : Prop :=
  (∀ w : Word, w &&& 0xF000 = 0xA000 → decodeWord w = .ok (.setI (fields w).nnn)) ∧
  (∀ w : Word, w &&& 0xF0FF = 0xF01E → decodeWord w = .ok (.addI (regOf (fields w).x))) ∧
  (∀ w : Word, w &&& 0xF0FF = 0xF029 → decodeWord w = .ok (.fontChar (regOf (fields w).x))) ∧
  (∀ (nnn : Addr12) (s : State), exec (.setI nnn) s = .next { s with iReg := nnn.setWidth 16 }) ∧
  (∀ (x : RegIdx) (s : State),
    exec (.addI x) s = .next { s with iReg := BitVec.ofNat 16 (s.iReg.toNat + s.v[x].toNat) } ∧
    exec (.fontChar x) s = .next { s with
      iReg := BitVec.ofNat 16 (5 * (s.v[x].toNat % 16) + Config.fontBase.val) })

/-- Digits gives the decimal digits, most significant first, without a leading zero or always three (R154). -/
def Obligations.DigitsAreTheDecimalDigits : Prop :=
  ∀ v : Byte,
    (v = 0 → digits .variableLength v = [0]) ∧
    (v ≠ 0 → (digits .variableLength v).head? ≠ some 0 ∧ (∀ d ∈ digits .variableLength v, d.toNat < 10) ∧
      (digits .variableLength v).foldl (fun acc d => 10 * acc + d.toNat) 0 = v.toNat) ∧
    digits .fixed3 v =
      [BitVec.ofNat 8 (v.toNat / 100), BitVec.ofNat 8 (v.toNat / 10 % 10), BitVec.ofNat 8 (v.toNat % 10)]

/-- BCD stores the decimal digits of Vx at I, I + 1, ... and nothing else, or faults and writes nothing (R153). -/
def Obligations.BcdStoresTheDigitsAtI : Prop :=
  (∀ w : Word, w &&& 0xF0FF = 0xF033 → decodeWord w = .ok (.bcd (regOf (fields w).x))) ∧
  (∀ (x : RegIdx) (s : State), s.mem.wf = true →
    (s.iReg.toNat + (digits .variableLength s.v[x]).length ≤ 0x1000 →
      ∃ t, exec (.bcd x) s = .next t ∧ t = { s with mem := t.mem } ∧
        (∀ k (h : k < (digits .variableLength s.v[x]).length),
          t.mem.readByte (effectiveAddress s k) = (digits .variableLength s.v[x])[k]) ∧
        (∀ a, (∀ k, k < (digits .variableLength s.v[x]).length → a ≠ effectiveAddress s k) →
          t.mem.readByte a = s.mem.readByte a)) ∧
    (0x1000 < s.iReg.toNat + (digits .variableLength s.v[x]).length →
      exec (.bcd x) s = .next { s with
        runState := .haltedFault
        fault := some { kind := .memoryFault, addr := some (max s.iReg.toNat 0x1000), pcAt := some (s.pc - 2), word := some (encode (.bcd x)), length := none } }))

/-- STORE_REGS stores V0..Vx at I..I+X and nothing else, or faults and writes nothing; I is unchanged (R155). -/
def Obligations.StoreRegsStoresV0ToVxAtI : Prop :=
  (∀ w : Word, w &&& 0xF0FF = 0xF055 → decodeWord w = .ok (.storeRegs (regOf (fields w).x))) ∧
  (∀ (x : RegIdx) (s : State), s.mem.wf = true →
    (s.iReg.toNat + x.val ≤ 0xFFF →
      ∃ t, exec (.storeRegs x) s = .next t ∧ t = { s with mem := t.mem } ∧
        (∀ k : RegIdx, k ≤ x → t.mem.readByte (effectiveAddress s k.val) = s.v[k]) ∧
        (∀ a, (∀ k : RegIdx, k ≤ x → a ≠ effectiveAddress s k.val) → t.mem.readByte a = s.mem.readByte a)) ∧
    (0xFFF < s.iReg.toNat + x.val →
      exec (.storeRegs x) s = .next { s with
        runState := .haltedFault
        fault := some { kind := .memoryFault, addr := some (max s.iReg.toNat 0x1000), pcAt := some (s.pc - 2), word := some (encode (.storeRegs x)), length := none } }))

/-- LOAD_REGS loads V0..Vx from I..I+X and nothing else, or faults and writes nothing; I is unchanged (R156). -/
def Obligations.LoadRegsLoadsV0ToVxFromI : Prop :=
  (∀ w : Word, w &&& 0xF0FF = 0xF065 → decodeWord w = .ok (.loadRegs (regOf (fields w).x))) ∧
  (∀ (x : RegIdx) (s : State),
    (s.iReg.toNat + x.val ≤ 0xFFF →
      ∃ t, exec (.loadRegs x) s = .next t ∧ t = { s with v := t.v } ∧
        ∀ k : RegIdx, t.v[k] = if k ≤ x then s.mem.readByte (effectiveAddress s k.val) else s.v[k]) ∧
    (0xFFF < s.iReg.toNat + x.val →
      exec (.loadRegs x) s = .next { s with
        runState := .haltedFault
        fault := some { kind := .memoryFault, addr := some (max s.iReg.toNat 0x1000), pcAt := some (s.pc - 2), word := some (encode (.loadRegs x)), length := none } }))

/-- CLS turns every pixel off and changes nothing else, VF included (R170). -/
def Obligations.ClsTurnsEveryPixelOff : Prop :=
  (∀ w : Word, w &&& 0xF0FF = 0x00E0 → decodeWord w = .ok (.cls (fields w).x)) ∧
  (∀ (i : Nibble) (s : State), ∃ t, exec (.cls i) s = .next t ∧ t = { s with fb := t.fb } ∧
    ∀ (x : Fin 64) (y : Fin 32), t.fb[y][x] = false)

/-- DRAW XORs the sprite at (Vx mod 64, Vy mod 32), clipped, and sets VF exactly on a collision; or it faults whole
(R171, R172, R173, R174). -/
def Obligations.DrawXorsTheSpriteClippedAndReportsCollision : Prop :=
  (∀ w : Word, w &&& 0xF000 = 0xD000 →
    decodeWord w = .ok (.draw (regOf (fields w).x) (regOf (fields w).y) (fields w).n.toFin)) ∧
  (∀ (x y : RegIdx) (n : RowCount) (s : State),
    ((n.val = 0 ∨ s.iReg.toNat + n.val - 1 ≤ 0xFFF) →
      ∃ (t : State) (vfNew : Byte), exec (.draw x y n) s = .next t ∧
        t = { s with fb := t.fb, v := s.v.set 15 vfNew } ∧
        (∀ (p : Fin 64) (q : Fin 32), t.fb[q][p] = (s.fb[q][p] ^^
          spriteBit ((List.range n.val).map (fun r => s.mem.readByte (effectiveAddress s r)))
            (s.v[x].toNat % 64) (s.v[y].toNat % 32) p.val q.val)) ∧
        (vfNew = 0 ∨ vfNew = 1) ∧
        (vfNew = 1 ↔ ∃ (p : Fin 64) (q : Fin 32), s.fb[q][p] = true ∧ t.fb[q][p] = false)) ∧
    (1 ≤ n.val → 0xFFF < s.iReg.toNat + n.val - 1 →
      exec (.draw x y n) s = .next { s with
        runState := .haltedFault
        fault := some { kind := .memoryFault, addr := some (max s.iReg.toNat 0x1000), pcAt := some (s.pc - 2), word := some (encode (.draw x y n)), length := none } }))

/-- Drawing the same sprite twice at the same place leaves every pixel as it was (44_display.md section 2,
95_test_vectors.md section 1). -/
def Obligations.DrawingTwiceRestoresThePixels : Prop :=
  ∀ (x y : RegIdx) (n : RowCount) (s : State), x ≠ 15 → y ≠ 15 → s.iReg.toNat + n.val ≤ 0x1000 →
    ∃ t u, exec (.draw x y n) s = .next t ∧ exec (.draw x y n) t = .next u ∧ u.fb = s.fb ∧
      (u.v[15] = 1 ↔ ∃ (p : Fin 64) (q : Fin 32), s.fb[q][p] = false ∧ t.fb[q][p] = true)

/-- SKIP_KEY skips once iff Vx is a sampled key code, SKIP_NOT_KEY iff it is not; nothing else changes (R185, R186).
-/
def Obligations.KeySkipsTestMembershipOnce : Prop :=
  (∀ w : Word, w &&& 0xF0FF = 0xE09E → decodeWord w = .ok (.skipKey (regOf (fields w).x))) ∧
  (∀ w : Word, w &&& 0xF0FF = 0xE0A1 → decodeWord w = .ok (.skipNotKey (regOf (fields w).x))) ∧
  (∀ (x : RegIdx) (s : State),
    ((∃ k ∈ s.keys, k.toNat = s.v[x].toNat) →
      exec (.skipKey x) s = .next { s with pc := s.pc + 2 } ∧ exec (.skipNotKey x) s = .next s) ∧
    ((∀ k ∈ s.keys, k.toNat ≠ s.v[x].toNat) →
      exec (.skipKey x) s = .next s ∧ exec (.skipNotKey x) s = .next { s with pc := s.pc + 2 }))

/-- GET_KEY loads the first reported key into Vx, or with no key moves pc back by 2; nothing else changes (R187). -/
def Obligations.GetKeyLoadsTheFirstKeyOrRewinds : Prop :=
  (∀ w : Word, w &&& 0xF0FF = 0xF00A → decodeWord w = .ok (.getKey (regOf (fields w).x))) ∧
  (∀ (x : RegIdx) (k : Nibble) (ks : List Nibble) (s : State), s.keys = k :: ks →
    exec (.getKey x) s = .next { s with v := s.v.set x (BitVec.ofNat 8 k.toNat) }) ∧
  (∀ (x : RegIdx) (s : State), s.keys = [] → exec (.getKey x) s = .next { s with pc := s.pc - 2 })

/-- GET_DELAY reads DT into Vx, SET_DELAY and SET_SOUND write Vx to DT and ST; nothing else changes (R190, R191,
R192). -/
def Obligations.TimerInstructionsMoveABetweenVxAndATimer : Prop :=
  (∀ w : Word, w &&& 0xF0FF = 0xF007 → decodeWord w = .ok (.getDelay (regOf (fields w).x))) ∧
  (∀ w : Word, w &&& 0xF0FF = 0xF015 → decodeWord w = .ok (.setDelay (regOf (fields w).x))) ∧
  (∀ w : Word, w &&& 0xF0FF = 0xF018 → decodeWord w = .ok (.setSound (regOf (fields w).x))) ∧
  (∀ (x : RegIdx) (s : State),
    exec (.getDelay x) s = .next { s with v := s.v.set x s.dt } ∧
    exec (.setDelay x) s = .next { s with dt := s.v[x] } ∧
    ∃ t, exec (.setSound x) s = .next t ∧ t = { s with st := s.v[x] } ∧
      (soundActive t = true ↔ s.v[x] ≠ 0) ∧
      (timerTickWith true t).st.toNat = s.v[x].toNat - 1 ∧ (timerTickWith false t).st = s.v[x])

/-- Every instruction answers a next state in every state: none is refused, in any mode or run_state (40_cycle.md
section 2, 60_exceptions.md section 6). Rests on the model's choice of log entry 13. -/
def Obligations.EveryInstructionAnswersANextState : Prop :=
  ∀ (i : Instr) (s : State), ∃ t, exec i s = .next t

/-- Each instruction leaves pc as the table says: its target, a skip, the rewind of GET_KEY, or the advance alone
(R25). -/
def Obligations.PcAfterEachInstruction : Prop :=
  (∀ (i : Instr) (a : Word) (s t : State), s.pc = a + 2 → s.runState = .running → exec i s = .next t →
    t.runState = .running →
    t.pc = match i with
      | .jump nnn | .call nnn => nnn.setWidth 16
      | .ret _ => (s.stack.getLast?).getD 0
      | .jumpOffset nnn => nnn.setWidth 16 + s.v[0].setWidth 16
      | .skipEqNn x nn => if s.v[x] = nn then a + 4 else a + 2
      | .skipNeNn x nn => if s.v[x] = nn then a + 2 else a + 4
      | .skipEqVy x y _ => if s.v[x] = s.v[y] then a + 4 else a + 2
      | .skipNeVy x y _ => if s.v[x] = s.v[y] then a + 2 else a + 4
      | .skipKey x => if s.v[x] ∈ s.keys.map (fun k => k.setWidth 8) then a + 4 else a + 2
      | .skipNotKey x => if s.v[x] ∈ s.keys.map (fun k => k.setWidth 8) then a + 2 else a + 4
      | .getKey _ => if s.keys = [] then a else a + 2
      | _ => a + 2) ∧
  (∀ (w : Word) (e : DecodeError) (s t : State), decodeWord w = .error e → executeWord w s = .next t →
    t.pc = s.pc + 2)

/-- Every general register but those the instruction writes keeps its value, for all 34 instructions (10_state.md
section 1). -/
def Obligations.RegistersChangeOnlyWhereTheTableSays : Prop :=
  ∀ (i : Instr) (s t : State) (r : RegIdx), exec i s = .next t → mayWriteV i r = false → t.v[r] = s.v[r]

/-- After ADD, SUB_VX, SUB_VY, DRAW, or a shift of another register, VF is 0 or 1 (10_state.md section 2, 42_alu.md
section 4). -/
def Obligations.FlagWritersLeaveZeroOrOneInVf : Prop :=
  ∀ (i : Instr) (s t : State), exec i s = .next t → s.runState = .running → t.runState = .running →
    ((∃ x y, i = .addReg x y ∨ i = .subVx x y ∨ i = .subVy x y) ∨
      (∃ x y, x ≠ 15 ∧ (i = .shiftRight x y ∨ i = .shiftLeft x y)) ∨ (∃ x y n, i = .draw x y n)) →
    t.v[15] = 0 ∨ t.v[15] = 1

/-- Every byte of memory outside the bytes BCD and STORE_REGS store reads as before, for all 34 instructions
(20_memory.md section 1). -/
def Obligations.MemoryChangesOnlyWhereTheInstructionStores : Prop :=
  ∀ (i : Instr) (s t : State), s.mem.wf = true → exec i s = .next t →
    ∀ a, (∀ k, k < storeCount i s → a ≠ effectiveAddress s k) → t.mem.readByte a = s.mem.readByte a

/-- No instruction but CLS and DRAW, no timer tick and no unknown word changes a pixel (10_state.md section 7,
44_display.md section 2). -/
def Obligations.FramebufferChangesOnlyByClsAndDraw : Prop :=
  (∀ (i : Instr) (s t : State), exec i s = .next t →
    (∀ x, i ≠ .cls x) → (∀ x y n, i ≠ .draw x y n) → t.fb = s.fb) ∧
  (∀ s : State, (timerTick s).fb = s.fb) ∧
  (∀ (w : Word) (e : DecodeError) (s t : State), decodeWord w = .error e → executeWord w s = .next t → t.fb = s.fb)

/-- I, DT, ST and the call stack change only by the instructions named for each, and the host's side by none
(10_state.md sections 4 to 6 and 9, 60_exceptions.md section 1). -/
def Obligations.SpecialStateChangesOnlyByItsInstructions : Prop :=
  ∀ (i : Instr) (s t : State), exec i s = .next t →
    ((∀ n, i ≠ .setI n) → (∀ x, i ≠ .addI x) → (∀ x, i ≠ .fontChar x) → t.iReg = s.iReg) ∧
    ((∀ x, i ≠ .setDelay x) → t.dt = s.dt) ∧
    ((∀ x, i ≠ .setSound x) → t.st = s.st) ∧
    ((∀ n, i ≠ .call n) → (∀ x, i ≠ .ret x) → t.stack = s.stack) ∧
    t.unknownEvents = s.unknownEvents ∧ t.keys = s.keys ∧ t.rand = s.rand ∧ t.inputs = s.inputs ∧
    t.draws = s.draws ∧ (raisedBy i s = none → t.runState = s.runState ∧ t.fault = s.fault)

/-- Exactly the listed instructions raise a fatal error, under exactly the listed conditions (R204). -/
def Obligations.WhichInstructionsRaiseWhichError : Prop :=
  (∀ (i : Instr) (s t : State), exec i s = .next t →
    (raisedBy i s = none → t.runState = s.runState ∧ t.fault = s.fault) ∧
    (∀ k, raisedBy i s = some k → t.runState = .haltedFault ∧ ∃ r, t.fault = some r ∧ r.kind = k)) ∧
  (∀ s : State, (s.pc.toNat ≤ 0xFFE → ∃ w, fetch s = .ok w) ∧
    (0xFFE < s.pc.toNat →
      fetch s = .error (if 0xFFF < s.pc.toNat then s.pc.toNat else s.pc.toNat + 1) ∧
      instructionCycle s = .next { s with
        runState := .haltedFault
        fault := some
          { kind := .memoryFault, addr := some (if 0xFFF < s.pc.toNat then s.pc.toNat else s.pc.toNat + 1),
            pcAt := some s.pc, word := none, length := none } })) ∧
  (∀ (w : Word) (e : DecodeError) (s : State), decodeWord w = .error e → ∃ t, executeWord w s = .next t ∧
    t.unknownEvents = s.unknownEvents ++ [{ word := w, addr := s.pc }] ∧
    t.runState = s.runState ∧ t.fault = s.fault)

/-- A cycle that halts the VM writes nothing: all state but run_state, fault, pc and the port samples is as before the
cycle (R202). The two port samples, which the model holds in the state, are taken from the strobe (log entries 14 and
16). -/
def Obligations.FatalErrorsArePrecise : Prop :=
  ∀ (s t : State) (codes : List Byte) (r : Byte) (rest : List HostEvent),
    s.runState = .running → s.inputs = .cycleStrobe codes r :: rest → step s = .next t →
    t.runState = .haltedFault →
    ∃ f : FaultRecord, t.fault = some f ∧ f.pcAt = some s.pc ∧
      ((∃ a, fetch s = .error a ∧ f.kind = .memoryFault ∧ f.addr = some a ∧ f.word = none ∧ t.pc = s.pc) ∨
        (∃ w i, fetch s = .ok w ∧ decodeWord w = .ok i ∧ f.word = some w ∧ t.pc = s.pc + 2 ∧
          raisedBy i s = some f.kind ∧
          f.addr = if f.kind = .memoryFault then some (max s.iReg.toNat 0x1000) else none)) ∧
      t = { s with
        runState := .haltedFault, fault := some f, pc := t.pc
        keys := codes.map (fun c => c.setWidth 4), rand := r, inputs := rest }

/-- Only the three key instructions depend on the key sample, and only RAND on the random byte (60_exceptions.md
section 5). -/
def Obligations.PortsAreReadOnlyByTheirInstructions : Prop :=
  ∀ (i : Instr) (s t : State), exec i s = .next t →
    (isKeyInstr i = false → ∀ ks, exec i { s with keys := ks } = .next { t with keys := ks }) ∧
    (isRand i = false → ∀ r, exec i { s with rand := r } = .next { t with rand := r })

/-- Every step keeps the memory in its canonical form (20_memory.md section 1). Rests on the model's choice of log
entry 18. -/
def Obligations.StepKeepsMemoryCanonical : Prop :=
  ∀ s t : State, s.memoryCanonical → step s = .next t → t.memoryCanonical

/-- Every step keeps pc at most 0x10FE, the stack at most 16 deep and its entries at most 0x1000 (10_state.md sections
3 and 6). -/
def Obligations.StepKeepsPcAndStackBounded : Prop :=
  ∀ s t : State, s.addressesBounded → step s = .next t → t.addressesBounded

/-- Every step keeps it so that there is a fault record exactly in HALTED_FAULT (10_state.md section 9,
60_exceptions.md section 1). Rests on the model's choice of log entry 9, log entry 11. -/
def Obligations.StepKeepsFaultRecordedExactlyWhenHalted : Prop :=
  ∀ s t : State, s.faultRecorded → step s = .next t → t.faultRecorded

/-- Every step keeps it so that only unknown words stand in the event stream (40_cycle.md section 1). -/
def Obligations.StepKeepsReportedWordsUnknown : Prop :=
  ∀ s t : State, s.eventsUnknown → step s = .next t → t.eventsUnknown

/-- The reset state satisfies all four invariants (10_state.md section 10). -/
def Obligations.ResetIsSound : Prop :=
  State.reset.Sound
end

