-- ==== Sys2Proof/Machine/Assembly.lean ====
section
/-! DEFINITION. The assembler syntax of spec/30_encoding.md R83, and what an assembler writes in the fields the core does
not read. It is notation: no definition of the machine uses it. -/

namespace Sys2Proof.Machine

/-- A hexadecimal digit. -/
def hexDigit (n : Nibble) : String :=
  ["0", "1", "2", "3", "4", "5", "6", "7", "8", "9", "A", "B", "C", "D", "E", "F"].getD n.toNat ""

/-- A register operand, `V0`..`VF`. -/
def registerText (x : RegIdx) : String := "V" ++ hexDigit (nibbleOf x)

/-- An 8-bit immediate. -/
def immediateText (nn : Byte) : String := "0x" ++ hexDigit (nn.extractLsb' 4 4) ++ hexDigit (nn.extractLsb' 0 4)

/-- An address. -/
def addressText (nnn : Addr12) : String :=
  "0x" ++ hexDigit (nnn.extractLsb' 8 4) ++ hexDigit (nnn.extractLsb' 4 4) ++ hexDigit (nnn.extractLsb' 0 4)

/-- The operands of an instruction, in the order of the fields in the word (R83). -/
def operandTexts (i : Instr) : List String :=
  match i with
  | .cls _ | .ret _ => []
  | .jump nnn | .call nnn | .setI nnn | .jumpOffset nnn => [addressText nnn]
  | .skipEqNn x nn | .skipNeNn x nn | .setVx x nn | .addVx x nn | .rand x nn => [registerText x, immediateText nn]
  | .skipEqVy x y _ | .skipNeVy x y _ => [registerText x, registerText y]
  | .setReg x y | .orReg x y | .andReg x y | .xorReg x y => [registerText x, registerText y]
  | .addReg x y | .subVx x y | .subVy x y => [registerText x, registerText y]
  | .shiftRight x y | .shiftLeft x y => [registerText x, registerText (regOf y)]
  | .draw x y n => [registerText x, registerText y, "0x" ++ hexDigit (BitVec.ofFin n)]
  | .skipKey x | .skipNotKey x | .getDelay x | .getKey x | .setDelay x | .setSound x => [registerText x]
  | .addI x | .fontChar x | .bcd x | .storeRegs x | .loadRegs x => [registerText x]

/-- The line of an instruction in the spec's syntax: the mnemonic, then the operands separated by commas (R83). -/
def listing (i : Instr) : String :=
  match operandTexts i with
  | [] => (rowOf i).mnemonic
  | first :: rest => rest.foldl (fun line operand => line ++ ", " ++ operand) ((rowOf i).mnemonic ++ " " ++ first)

/-- The instruction the assembler writes for that line: X of CLS and RETURN and N of the two register skips are 0, Y of
the shifts is the Y given. The core accepts any value there (R83, R76, R77). -/
def assembled (i : Instr) : Instr :=
  match i with
  | .cls _ => .cls 0
  | .ret _ => .ret 0
  | .skipEqVy x y _ => .skipEqVy x y 0
  | .skipNeVy x y _ => .skipNeVy x y 0
  | .jump _ | .call _ | .setI _ | .jumpOffset _ => i
  | .skipEqNn _ _ | .skipNeNn _ _ | .setVx _ _ | .addVx _ _ | .rand _ _ => i
  | .setReg _ _ | .orReg _ _ | .andReg _ _ | .xorReg _ _ | .addReg _ _ | .subVx _ _ | .subVy _ _ => i
  | .shiftRight _ _ | .shiftLeft _ _ | .draw _ _ _ => i
  | .skipKey _ | .skipNotKey _ | .getDelay _ | .getKey _ | .setDelay _ | .setSound _ => i
  | .addI _ | .fontChar _ | .bcd _ | .storeRegs _ | .loadRegs _ => i

/-- `HALT` at address `a`: a jump to itself, for an address a jump reaches (R84). -/
def haltAt (a : Word) : Option Instr := if a.toNat ≤ 0xFFF then some (.jump (a.setWidth 12)) else none

end Sys2Proof.Machine
end

