-- ==== Sys2Proof/Laws/Assembly.lean ====
section
/-! SUPPORT. What the core does not read: the line of an instruction and its effect are those of the instruction the
assembler writes (spec/30_encoding.md R83). -/

namespace Sys2Proof.Machine

theorem listing_assembled (i : Instr) : listing (assembled i) = listing i := by cases i <;> rfl

theorem assembled_assembled (i : Instr) : assembled (assembled i) = assembled i := by cases i <;> rfl

/-- The core accepts any value in the fields the assembler zeroes. A RETURN that underflows records its own word. -/
theorem exec_assembled (i : Instr) (s : State) (h : (∀ x, i ≠ .ret x) ∨ s.stack ≠ []) :
    exec (assembled i) s = exec i s := by
  cases i
  case ret x =>
    obtain ⟨below, entry, hs⟩ : ∃ below entry, s.stack = below ++ [entry] := by
      rcases h with h | h
      · exact absurd rfl (h x)
      · exact ⟨_, _, (List.dropLast_append_getLast h).symm⟩
    simp only [assembled, exec, execReturn, State.top, hs, List.getLast?_append, List.getLast?_singleton,
      Option.some_or]
  all_goals rfl

/-- The shifts do not read Vy. -/
theorem exec_shift_ignores_y (x : RegIdx) (y z : Nibble) (s : State) :
    exec (.shiftRight x y) s = exec (.shiftRight x z) s ∧ exec (.shiftLeft x y) s = exec (.shiftLeft x z) s :=
  ⟨rfl, rfl⟩

end Sys2Proof.Machine
end

