-- ==== Sys2Proof/Laws/Decode.lean ====
section
/-! SUPPORT. The laws of decoding: the fields of each word form, the fields determine the word, and the byte layout. -/

namespace Sys2Proof

/-! ### The fields of the three word forms -/

theorem fields_word4 (op x y n : Nibble) :
    fields (word4 op x y n) = { op := op, x := x, y := y, n := n, nn := y ++ n, nnn := x ++ y ++ n } := by
  simp only [fields, word4, Fields.mk.injEq]
  refine ⟨?_, ?_, ?_, ?_, ?_, ?_⟩ <;>
  · apply BitVec.eq_of_getLsbD_eq
    intro i hi
    simp only [BitVec.getLsbD_extractLsb', BitVec.getLsbD_append]
    interval_cases i <;> simp

theorem fields_wordXNN (op : Nibble) (x : RegIdx) (nn : Byte) :
    fields (wordXNN op x nn) =
      { op := op, x := nibbleOf x, y := nn.extractLsb' 4 4, n := nn.extractLsb' 0 4, nn := nn,
        nnn := nibbleOf x ++ nn } := by
  simp only [fields, wordXNN, Fields.mk.injEq]
  refine ⟨?_, ?_, ?_, ?_, ?_, ?_⟩ <;>
  · apply BitVec.eq_of_getLsbD_eq
    intro i hi
    simp only [BitVec.getLsbD_extractLsb', BitVec.getLsbD_append]
    interval_cases i <;> simp

theorem fields_wordNNN (op : Nibble) (nnn : Addr12) :
    fields (wordNNN op nnn) =
      { op := op, x := nnn.extractLsb' 8 4, y := nnn.extractLsb' 4 4, n := nnn.extractLsb' 0 4,
        nn := nnn.extractLsb' 0 8, nnn := nnn } := by
  simp only [fields, wordNNN, Fields.mk.injEq]
  refine ⟨?_, ?_, ?_, ?_, ?_, ?_⟩ <;>
  · apply BitVec.eq_of_getLsbD_eq
    intro i hi
    simp only [BitVec.getLsbD_extractLsb', BitVec.getLsbD_append]
    interval_cases i <;> simp

@[simp] theorem regOf_nibbleOf (x : RegIdx) : regOf (nibbleOf x) = x := rfl

@[simp] theorem nibbleOf_regOf (f : Nibble) : nibbleOf (regOf f) = f := rfl

/-! ### The fields determine the word -/

theorem word4_fields (w : Word) : word4 (fields w).op (fields w).x (fields w).y (fields w).n = w := by
  simp only [fields, word4]
  apply BitVec.eq_of_getLsbD_eq
  intro i hi
  simp only [BitVec.getLsbD_extractLsb', BitVec.getLsbD_append]
  interval_cases i <;> simp

theorem fields_nn (w : Word) : (fields w).nn = (fields w).y ++ (fields w).n := by
  have h := congrArg Fields.nn (fields_word4 (fields w).op (fields w).x (fields w).y (fields w).n)
  rwa [word4_fields] at h

theorem fields_nnn (w : Word) : (fields w).nnn = (fields w).x ++ (fields w).y ++ (fields w).n := by
  have h := congrArg Fields.nnn (fields_word4 (fields w).op (fields w).x (fields w).y (fields w).n)
  rwa [word4_fields] at h

/-- The low byte holds the two low fields. -/
theorem fields_y_n_of_nn (w : Word) :
    (fields w).y = (fields w).nn.extractLsb' 4 4 ∧ (fields w).n = (fields w).nn.extractLsb' 0 4 := by
  simp only [fields]
  constructor
  all_goals
    apply BitVec.eq_of_getLsbD_eq
    intro i hi
    simp only [BitVec.getLsbD_extractLsb']
    interval_cases i <;> simp

theorem wordXNN_fields (w : Word) : wordXNN (fields w).op (regOf (fields w).x) (fields w).nn = w := by
  rw [fields_nn]
  simp only [wordXNN, nibbleOf_regOf]
  conv_rhs => rw [← word4_fields w]
  simp only [word4]
  apply BitVec.eq_of_getLsbD_eq
  intro i hi
  simp only [BitVec.getLsbD_append]
  interval_cases i <;> simp

theorem wordNNN_fields (w : Word) : wordNNN (fields w).op (fields w).nnn = w := by
  rw [fields_nnn]
  simp only [wordNNN]
  conv_rhs => rw [← word4_fields w]
  simp only [word4]
  apply BitVec.eq_of_getLsbD_eq
  intro i hi
  simp only [BitVec.getLsbD_append]
  interval_cases i <;> simp

/-! ### What a mask of the opcode table fixes -/

theorem fields_op_of_and_F000 (w c : Word) (h : w &&& 0xF000 = c) : (fields w).op = (fields c).op := by
  subst h
  simp only [fields]
  apply BitVec.eq_of_getLsbD_eq
  intro i hi
  simp only [BitVec.getLsbD_extractLsb', BitVec.getLsbD_and]
  interval_cases i <;> simp

theorem fields_op_n_of_and_F00F (w c : Word) (h : w &&& 0xF00F = c) :
    (fields w).op = (fields c).op ∧ (fields w).n = (fields c).n := by
  subst h
  simp only [fields]
  constructor
  all_goals
    apply BitVec.eq_of_getLsbD_eq
    intro i hi
    simp only [BitVec.getLsbD_extractLsb', BitVec.getLsbD_and]
    interval_cases i <;> simp

theorem fields_op_nn_of_and_F0FF (w c : Word) (h : w &&& 0xF0FF = c) :
    (fields w).op = (fields c).op ∧ (fields w).nn = (fields c).nn := by
  subst h
  simp only [fields]
  constructor
  all_goals
    apply BitVec.eq_of_getLsbD_eq
    intro i hi
    simp only [BitVec.getLsbD_extractLsb', BitVec.getLsbD_and]
    interval_cases i <;> simp

/-! ### Bytes -/

@[simp] theorem wordOfBytes_bytesOfWord (w : Word) :
    wordOfBytes (w.extractLsb' 8 8) (w.extractLsb' 0 8) = w := by
  simp only [wordOfBytes]
  apply BitVec.eq_of_getLsbD_eq
  intro i hi
  simp only [BitVec.getLsbD_extractLsb', BitVec.getLsbD_append]
  interval_cases i <;> simp

/-- Decoding the bytes of a word is decoding the word. -/
theorem decode_bytesOfWord_ok (w : Word) (i : Instr) (rest : List Byte) (h : decodeWord w = .ok i) :
    decode (bytesOfWord w ++ rest) = .ok (i, rest) := by
  simp only [bytesOfWord, List.cons_append, List.nil_append, decode, wordOfBytes_bytesOfWord, h]

theorem decode_bytesOfWord_error (w : Word) (e : DecodeError) (rest : List Byte) (h : decodeWord w = .error e) :
    decode (bytesOfWord w ++ rest) = .error e := by
  simp only [bytesOfWord, List.cons_append, List.nil_append, decode, wordOfBytes_bytesOfWord, h]

theorem ofNat_mod_two_pow (w : Nat) : BitVec.ofNat 16 (w % 2 ^ 16) = BitVec.ofNat 16 w := by
  apply BitVec.eq_of_toNat_eq
  simp

theorem decodeTableWord_ok (w : Nat) (i : Instr) (h : decodeWord (BitVec.ofNat 16 w) = .ok i) :
    decodeTableWord 16 w = some i := by
  have h2 := decode_bytesOfWord_ok _ i [] h
  rw [List.append_nil] at h2
  rw [decodeTableWord, ofNat_mod_two_pow, h2]

theorem decodeTableWord_error (w : Nat) (e : DecodeError) (h : decodeWord (BitVec.ofNat 16 w) = .error e) :
    decodeTableWord 16 w = none := by
  have h2 := decode_bytesOfWord_error _ e [] h
  rw [List.append_nil] at h2
  rw [decodeTableWord, ofNat_mod_two_pow, h2]

end Sys2Proof
end

