-- ==== Sys2Proof/Laws/Framebuffer.lean ====
section
/-! SUPPORT. The laws of the sprite engine: what flipping a pixel, drawing a row and drawing a sprite do to every pixel,
and when a collision is noted. -/

namespace Sys2Proof.Machine

/-! ### One pixel -/

/-- What flipping one pixel does to every pixel: the named one is XORed, every other one stays; a place off the grid
changes nothing. -/
theorem flipPixel_fb (d : Drawing) (a b : Nat) (x : Fin 64) (y : Fin 32) :
    (flipPixel d a b).1[y][x] = (d.1[y][x] ^^ decide (a = x.val ∧ b = y.val)) := by
  obtain ⟨x, hx⟩ := x
  obtain ⟨y, hy⟩ := y
  simp only [flipPixel, Fin.getElem_fin]
  split
  next h =>
    by_cases hb : b = y
    · subst hb
      by_cases ha : a = x
      · subst ha; simp
      · simp [ha]
    · simp [hb]
  next h =>
    have : ¬(a = x ∧ b = y) := by omega
    simp [this]

/-- When flipping one pixel notes a collision: the pixel is on the grid and was on. -/
theorem flipPixel_collision (d : Drawing) (a b : Nat) :
    (flipPixel d a b).2 = true ↔ d.2 = true ∨ ∃ x : Fin 64, ∃ y : Fin 32, a = x.val ∧ b = y.val ∧ d.1[y][x] = true := by
  simp only [flipPixel]
  split
  next h =>
    simp only [Bool.or_eq_true]
    refine or_congr_right ⟨fun hp => ⟨⟨a, h.1⟩, ⟨b, h.2⟩, rfl, rfl, hp⟩, ?_⟩
    rintro ⟨x, y, rfl, rfl, hp⟩
    exact hp
  next h =>
    refine ⟨.inl, ?_⟩
    rintro (hd | ⟨x, y, rfl, rfl, -⟩)
    · exact hd
    · exact absurd ⟨x.isLt, y.isLt⟩ h

/-! ### One row -/

/-- The first `n` bits of a row. -/
def drawBits (d : Drawing) (x0 y : Nat) (row : Byte) (n : Nat) : Drawing :=
  (List.range n).foldl (fun d b => if row.getLsbD (7 - b) then flipPixel d (x0 + b) y else d) d

theorem drawBits_succ (d : Drawing) (x0 y : Nat) (row : Byte) (n : Nat) :
    drawBits d x0 y row (n + 1) =
      if row.getLsbD (7 - n) then flipPixel (drawBits d x0 y row n) (x0 + n) y else drawBits d x0 y row n := by
  simp [drawBits, List.range_succ]

theorem drawBits_fb (d : Drawing) (x0 y : Nat) (row : Byte) (n : Nat) (p : Fin 64) (q : Fin 32) :
    (drawBits d x0 y row n).1[q][p] =
      (d.1[q][p] ^^ (decide (x0 ≤ p.val ∧ p.val < x0 + n ∧ y = q.val) && row.getLsbD (7 - (p.val - x0)))) := by
  induction n with
  | zero =>
    have : ¬(x0 ≤ p.val ∧ p.val < x0 + 0 ∧ y = q.val) := by omega
    simp only [drawBits, List.range_zero, List.foldl_nil, this, decide_false, Bool.false_and, Bool.xor_false]
  | succ n ih =>
    rw [drawBits_succ]
    by_cases hp : x0 + n = p.val ∧ y = q.val
    · have h1 : ¬(x0 ≤ p.val ∧ p.val < x0 + n ∧ y = q.val) := by omega
      have h2 : x0 ≤ p.val ∧ p.val < x0 + (n + 1) ∧ y = q.val := by omega
      have h3 : p.val - x0 = n := by omega
      simp only [h1, decide_false, Bool.false_and, Bool.xor_false] at ih
      rw [decide_eq_true h2, h3, Bool.true_and]
      split
      next hb => rw [flipPixel_fb, ih, decide_eq_true hp, hb]
      next hb => rw [ih, Bool.eq_false_iff.mpr hb, Bool.xor_false]
    · have h2 : (x0 ≤ p.val ∧ p.val < x0 + (n + 1) ∧ y = q.val) ↔ (x0 ≤ p.val ∧ p.val < x0 + n ∧ y = q.val) := by
        omega
      simp only [h2]
      split
      · rw [flipPixel_fb, ih]; simp [hp]
      · exact ih

theorem drawBits_collision (d : Drawing) (x0 y : Nat) (row : Byte) (n : Nat) :
    (drawBits d x0 y row n).2 = true ↔ d.2 = true ∨ ∃ p : Fin 64, ∃ q : Fin 32,
      (x0 ≤ p.val ∧ p.val < x0 + n ∧ y = q.val) ∧ row.getLsbD (7 - (p.val - x0)) = true ∧ d.1[q][p] = true := by
  induction n with
  | zero =>
    refine ⟨.inl, ?_⟩
    rintro (h | ⟨p, q, h, -⟩)
    · exact h
    · omega
  | succ n ih =>
    rw [drawBits_succ]
    split
    next hb =>
      rw [flipPixel_collision, ih]
      constructor
      · rintro ((h | ⟨p, q, h, hbit, hon⟩) | ⟨p, q, hp, hq, hon⟩)
        · exact .inl h
        · exact .inr ⟨p, q, by omega, hbit, hon⟩
        · have h1 : ¬(x0 ≤ p.val ∧ p.val < x0 + n ∧ y = q.val) := by omega
          rw [drawBits_fb] at hon
          refine .inr ⟨p, q, by omega, ?_, by simpa [h1] using hon⟩
          rw [show p.val - x0 = n by omega]; exact hb
      · rintro (h | ⟨p, q, h, hbit, hon⟩)
        · exact .inl (.inl h)
        · by_cases hp : x0 + n = p.val
          · have h1 : ¬(x0 ≤ p.val ∧ p.val < x0 + n ∧ y = q.val) := by omega
            refine .inr ⟨p, q, hp, h.2.2, ?_⟩
            rw [drawBits_fb]; simpa [h1] using hon
          · exact .inl (.inr ⟨p, q, by omega, hbit, hon⟩)
    next hb =>
      rw [ih]
      refine or_congr_right (exists_congr fun p => exists_congr fun q => ?_)
      constructor
      · rintro ⟨h, hr⟩; exact ⟨by omega, hr⟩
      · rintro ⟨h, hbit, hon⟩
        refine ⟨⟨h.1, ?_, h.2.2⟩, hbit, hon⟩
        have : p.val ≠ x0 + n := by
          intro hp
          rw [show p.val - x0 = n by omega] at hbit
          exact hb hbit
        omega

/-! ### All rows -/

theorem spriteBit_cons (row : Byte) (rest : List Byte) (x0 y0 x y : Nat) :
    spriteBit (row :: rest) x0 y0 x y =
      if y = y0 then decide (x0 ≤ x ∧ x < x0 + 8) && row.getLsbD (7 - (x - x0)) else spriteBit rest x0 (y0 + 1) x y := by
  by_cases hy : y = y0
  · subst hy; simp [spriteBit]
  · rw [if_neg hy]
    simp only [spriteBit, List.length_cons]
    by_cases hlt : y0 < y
    · have h1 : (x0 ≤ x ∧ x < x0 + 8 ∧ y0 ≤ y ∧ y < y0 + (rest.length + 1)) ↔
          (x0 ≤ x ∧ x < x0 + 8 ∧ y0 + 1 ≤ y ∧ y < y0 + 1 + rest.length) := by omega
      have h2 : y - y0 = (y - (y0 + 1)) + 1 := by omega
      simp only [h1, h2, List.getD_cons_succ]
    · have h1 : ¬(x0 ≤ x ∧ x < x0 + 8 ∧ y0 ≤ y ∧ y < y0 + (rest.length + 1)) := by omega
      have h2 : ¬(x0 ≤ x ∧ x < x0 + 8 ∧ y0 + 1 ≤ y ∧ y < y0 + 1 + rest.length) := by omega
      simp only [h1, h2, decide_false, Bool.false_and]

/-- What drawing a sprite does to every pixel: XOR with the sprite's bit there (R171 to R173). -/
theorem drawRows_fb (d : Drawing) (x0 y0 : Nat) (rows : List Byte) (p : Fin 64) (q : Fin 32) :
    (drawRows d x0 y0 rows).1[q][p] = (d.1[q][p] ^^ spriteBit rows x0 y0 p.val q.val) := by
  induction rows generalizing d y0 with
  | nil =>
    have : ¬(x0 ≤ p.val ∧ p.val < x0 + 8 ∧ y0 ≤ q.val ∧ q.val < y0 + 0) := by omega
    simp only [drawRows, spriteBit, List.length_nil, this, decide_false, Bool.false_and, Bool.xor_false]
  | cons row rest ih =>
    rw [drawRows, ih, spriteBit_cons]
    have h := drawBits_fb d x0 y0 row 8 p q
    rw [show drawBits d x0 y0 row 8 = drawRow d x0 y0 row from rfl] at h
    rw [h]
    by_cases hq : q.val = y0
    · have h2 : spriteBit rest x0 (y0 + 1) p.val q.val = false := by
        have : ¬(x0 ≤ p.val ∧ p.val < x0 + 8 ∧ y0 + 1 ≤ q.val ∧ q.val < y0 + 1 + rest.length) := by omega
        simp only [spriteBit, this, decide_false, Bool.false_and]
      rw [if_pos hq, h2]
      simp [hq]
    · rw [if_neg hq]
      have : ¬(x0 ≤ p.val ∧ p.val < x0 + 8 ∧ y0 = q.val) := by omega
      simp [this]

/-- When drawing a sprite notes a collision: some set bit falls on a pixel that was on (R174). -/
theorem drawRows_collision (d : Drawing) (x0 y0 : Nat) (rows : List Byte) :
    (drawRows d x0 y0 rows).2 = true ↔
      d.2 = true ∨ ∃ p : Fin 64, ∃ q : Fin 32, spriteBit rows x0 y0 p.val q.val = true ∧ d.1[q][p] = true := by
  induction rows generalizing d y0 with
  | nil =>
    refine ⟨.inl, ?_⟩
    rintro (h | ⟨p, q, h, -⟩)
    · exact h
    · simp [spriteBit] at h
  | cons row rest ih =>
    rw [drawRows, ih]
    have hc := drawBits_collision d x0 y0 row 8
    have hf := drawBits_fb d x0 y0 row 8
    rw [show drawBits d x0 y0 row 8 = drawRow d x0 y0 row from rfl] at hc hf
    rw [hc, or_assoc]
    refine or_congr_right ?_
    have below (p : Fin 64) (q : Fin 32) (h : spriteBit rest x0 (y0 + 1) p.val q.val = true) : q.val ≠ y0 := by
      intro hq
      have : ¬(x0 ≤ p.val ∧ p.val < x0 + 8 ∧ y0 + 1 ≤ q.val ∧ q.val < y0 + 1 + rest.length) := by omega
      simp only [spriteBit, this, decide_false, Bool.false_and, Bool.false_eq_true] at h
    constructor
    · rintro (⟨p, q, ⟨h1, h2, h3⟩, hbit, hon⟩ | ⟨p, q, hbit, hon⟩)
      · exact ⟨p, q, by rw [spriteBit_cons, if_pos h3.symm]; simp [h1, h2, hbit], hon⟩
      · have hq := below p q hbit
        have : ¬(x0 ≤ p.val ∧ p.val < x0 + 8 ∧ y0 = q.val) := by omega
        rw [hf] at hon
        exact ⟨p, q, by rw [spriteBit_cons, if_neg hq]; exact hbit, by simpa [this] using hon⟩
    · rintro ⟨p, q, hbit, hon⟩
      rw [spriteBit_cons] at hbit
      by_cases hq : q.val = y0
      · rw [if_pos hq] at hbit
        simp only [Bool.and_eq_true, decide_eq_true_eq] at hbit
        exact .inl ⟨p, q, ⟨hbit.1.1, hbit.1.2, hq.symm⟩, hbit.2, hon⟩
      · rw [if_neg hq] at hbit
        have : ¬(x0 ≤ p.val ∧ p.val < x0 + 8 ∧ y0 = q.val) := by omega
        exact .inr ⟨p, q, hbit, by rw [hf]; simpa [this] using hon⟩

@[simp] theorem getElem_clearedFramebuffer (p : Fin 64) (q : Fin 32) : clearedFramebuffer[q][p] = false := by
  simp [clearedFramebuffer]

end Sys2Proof.Machine
end

