-- ==== Sys2Proof/Laws/Memory.lean ====
section
/-! SUPPORT. The laws of memory: the canonical form is kept by every operation, what a write does to every read, and the
range check and the sequences of accesses, said once each. -/

namespace Sys2Proof.Machine

/-! ### Reading one byte -/

@[simp] theorem Memory.readByte_nil (a : Nat) : Memory.readByte [] a = resetByte a := rfl

@[simp] theorem Memory.readByte_cons (b : Nat) (v : Byte) (m : Memory) (a : Nat) :
    Memory.readByte ((b, v) :: m) a = if a = b then v else m.readByte a := rfl

/-- An address below every listed one reads as its reset contents. -/
theorem Memory.readByte_of_lt_all (m : Memory) (a : Nat) (h : ∀ c ∈ m, a < c.1) :
    m.readByte a = resetByte a := by
  induction m with
  | nil => rfl
  | cons c m ih =>
    obtain ⟨b, v⟩ := c
    have hb : a < b := h (b, v) (by simp)
    rw [readByte_cons, if_neg (by omega)]
    exact ih (fun c hc => h c (by simp [hc]))

/-! ### The canonical form -/

theorem Memory.wf_iff (m : Memory) :
    m.wf = true ↔ m.Pairwise (fun c d => c.1 < d.1) ∧ ∀ c ∈ m, c.1 < Config.memSize ∧ c.2 ≠ resetByte c.1 := by
  simp [Memory.wf]

@[simp] theorem Memory.wf_nil : Memory.wf [] = true := rfl

theorem Memory.wf_cons (c : Host.Cell) (m : Memory) :
    Memory.wf (c :: m) = true ↔
      (∀ d ∈ m, c.1 < d.1) ∧ c.1 < Config.memSize ∧ c.2 ≠ resetByte c.1 ∧ m.wf = true := by
  simp only [Memory.wf_iff, List.pairwise_cons, List.forall_mem_cons]
  tauto

/-- Every cell of the list after an insertion is the new cell or an old one. -/
theorem Memory.mem_insertCell (m : Memory) (a : Nat) (v : Byte) (c : Host.Cell)
    (h : c ∈ m.insertCell a v) : c = (a, v) ∨ c ∈ m := by
  induction m with
  | nil => simpa [insertCell] using h
  | cons d m ih =>
    obtain ⟨b, u⟩ := d
    simp only [insertCell] at h
    split at h
    · simpa using h
    · split at h
      · rcases List.mem_cons.mp h with h | h
        · exact .inl h
        · exact .inr (by simp [h])
      · rcases List.mem_cons.mp h with h | h
        · exact .inr (by simp [h])
        · exact (ih h).imp_right (fun h => by simp [h])

theorem Memory.mem_eraseCell (m : Memory) (a : Nat) (c : Host.Cell) (h : c ∈ m.eraseCell a) : c ∈ m := by
  induction m with
  | nil => simp [eraseCell] at h
  | cons d m ih =>
    obtain ⟨b, u⟩ := d
    simp only [eraseCell] at h
    split at h
    · simp [h]
    · rcases List.mem_cons.mp h with h | h
      · simp [h]
      · simp [ih h]

theorem Memory.insertCell_wf (m : Memory) (a : Nat) (v : Byte) (hm : m.wf = true) (ha : a < Config.memSize)
    (hv : v ≠ resetByte a) : (m.insertCell a v).wf = true := by
  induction m with
  | nil => simp [insertCell, wf_cons, ha, hv]
  | cons d m ih =>
    obtain ⟨b, u⟩ := d
    obtain ⟨hlt, hb, hu, hm'⟩ := (wf_cons _ _).mp hm
    simp only [insertCell]
    split
    next hab =>
      refine (wf_cons _ _).mpr ⟨fun d hd => ?_, ha, hv, hm⟩
      rcases List.mem_cons.mp hd with rfl | hd
      · exact hab
      · exact Nat.lt_trans hab (hlt d hd)
    next hab =>
      split
      next h => subst h; exact (wf_cons _ _).mpr ⟨hlt, ha, hv, hm'⟩
      next h =>
        refine (wf_cons _ _).mpr ⟨fun d hd => ?_, hb, hu, ih hm'⟩
        rcases mem_insertCell m a v d hd with rfl | hd
        · change b < a; omega
        · exact hlt d hd

theorem Memory.eraseCell_wf (m : Memory) (a : Nat) (hm : m.wf = true) : (m.eraseCell a).wf = true := by
  induction m with
  | nil => rfl
  | cons d m ih =>
    obtain ⟨b, u⟩ := d
    obtain ⟨hlt, hb, hu, hm⟩ := (wf_cons _ _).mp hm
    simp only [eraseCell]
    split
    · exact hm
    · exact (wf_cons _ _).mpr ⟨fun d hd => hlt d (mem_eraseCell m a d hd), hb, hu, ih hm⟩

/-- A write keeps the canonical form. -/
theorem Memory.writeByte_wf (m : Memory) (a : Nat) (v : Byte) (hm : m.wf = true) : (m.writeByte a v).wf = true := by
  simp only [writeByte]
  split
  next ha =>
    split
    · exact eraseCell_wf m a hm
    next hv => exact insertCell_wf m a v hm ha hv
  · exact hm

/-- A sequence of writes keeps the canonical form. -/
theorem writeBytes_wf (m : Memory) (base : Nat) (bytes : List Byte) (hm : m.wf = true) :
    (writeBytes m base bytes).wf = true := by
  induction bytes generalizing m base with
  | nil => exact hm
  | cons b rest ih => exact ih _ _ (m.writeByte_wf base b hm)

/-! ### Reading after writing -/

theorem Memory.readByte_insertCell (m : Memory) (a b : Nat) (v : Byte) :
    (m.insertCell a v).readByte b = if b = a then v else m.readByte b := by
  induction m with
  | nil => simp [insertCell]
  | cons d m ih =>
    obtain ⟨c, u⟩ := d
    simp only [insertCell]
    split
    · simp
    next h1 =>
      split
      next h2 => subst h2; by_cases h : b = a <;> simp [h]
      next h2 =>
        by_cases h : b = c
        · subst h; simp [Ne.symm h2]
        · simp [h, ih]

theorem Memory.readByte_eraseCell (m : Memory) (a b : Nat) (hm : m.wf = true) :
    (m.eraseCell a).readByte b = if b = a then resetByte a else m.readByte b := by
  induction m with
  | nil => by_cases h : b = a <;> simp [eraseCell, h]
  | cons d m ih =>
    obtain ⟨c, u⟩ := d
    obtain ⟨hlt, -, -, hm⟩ := (wf_cons _ _).mp hm
    simp only [eraseCell]
    split
    next h1 =>
      subst h1
      by_cases h : b = a
      · subst h; simp [readByte_of_lt_all m b hlt]
      · simp [h]
    next h1 =>
      by_cases h : b = c
      · subst h; simp [Ne.symm h1]
      · simp [h, ih hm]

/-- What one write does to every read: the written address gives the byte, every other address what it gave. -/
theorem Memory.readByte_writeByte (m : Memory) (a b : Nat) (v : Byte) (hm : m.wf = true) (ha : a < Config.memSize) :
    (m.writeByte a v).readByte b = if b = a then v else m.readByte b := by
  rw [writeByte, if_pos ha]
  split
  next hv => rw [readByte_eraseCell m a b hm, hv]
  · exact readByte_insertCell m a b v

/-- An address a write does not name reads as before. -/
theorem Memory.readByte_writeByte_ne (m : Memory) (a b : Nat) (v : Byte) (hm : m.wf = true) (h : b ≠ a) :
    (m.writeByte a v).readByte b = m.readByte b := by
  by_cases ha : a < Config.memSize
  · rw [readByte_writeByte m a b v hm ha, if_neg h]
  · rw [writeByte, if_neg ha]

/-- What a sequence of writes does to every read outside it. -/
theorem readByte_writeBytes_outside (m : Memory) (base a : Nat) (bytes : List Byte) (hm : m.wf = true)
    (h : a < base ∨ base + bytes.length ≤ a) : (writeBytes m base bytes).readByte a = m.readByte a := by
  induction bytes generalizing m base with
  | nil => rfl
  | cons b rest ih =>
    simp only [List.length_cons] at h
    rw [writeBytes, ih _ _ (m.writeByte_wf base b hm) (by omega)]
    exact m.readByte_writeByte_ne base a b hm (by omega)

/-- What a sequence of writes does to every read inside it. -/
theorem readByte_writeBytes_inside (m : Memory) (base k : Nat) (bytes : List Byte) (hm : m.wf = true)
    (hk : k < bytes.length) (hend : base + bytes.length ≤ Config.memSize) :
    (writeBytes m base bytes).readByte (base + k) = bytes[k] := by
  induction bytes generalizing m base k with
  | nil => simp at hk
  | cons b rest ih =>
    simp only [List.length_cons] at hend hk
    cases k with
    | zero =>
      rw [writeBytes, readByte_writeBytes_outside _ _ _ _ (m.writeByte_wf base b hm) (by omega)]
      simp [m.readByte_writeByte base _ b hm (by omega)]
    | succ k =>
      have h := ih (m.writeByte base b) (base + 1) k (m.writeByte_wf base b hm) (by omega) (by omega)
      rw [show base + 1 + k = base + (k + 1) by omega] at h
      simpa [writeBytes] using h

/-! ### Range checks and sequences of reads -/

/-- The range check, said once: it fails exactly when the last access is above 0xFFF, at the lowest such address. -/
theorem firstOutOfRange_eq (base count : Nat) :
    firstOutOfRange base count = if 0x1000 < base + count ∧ 0 < count then some (max base 0x1000) else none := by
  induction count with
  | zero => simp [firstOutOfRange]
  | succ n ih =>
    have step : firstOutOfRange base (n + 1) =
        (firstOutOfRange base n).or (if 0xFFF < base + n then some (base + n) else none) := by
      simp only [firstOutOfRange, List.range_succ, List.map_append, List.find?_append]
      congr 1
      simp only [List.map_cons, List.map_nil, List.find?_cons, List.find?_nil]
      split <;> simp_all
    rw [step, ih]
    by_cases h : 0x1000 < base + n ∧ 0 < n
    · rw [if_pos h, Option.some_or, if_pos (show 0x1000 < base + (n + 1) ∧ 0 < n + 1 by omega)]
    · rw [if_neg h, Option.none_or]
      by_cases h2 : 0xFFF < base + n
      · rw [if_pos h2, if_pos (by omega)]
        exact congrArg some (by omega)
      · rw [if_neg h2, if_neg (by omega)]

theorem firstOutOfRange_eq_none (base count : Nat) (h : base + count ≤ 0x1000 ∨ count = 0) :
    firstOutOfRange base count = none := by
  rw [firstOutOfRange_eq, if_neg (by omega)]

theorem firstOutOfRange_eq_some (base count : Nat) (h : 0x1000 < base + count) (hc : 0 < count) :
    firstOutOfRange base count = some (max base 0x1000) := by
  rw [firstOutOfRange_eq, if_pos ⟨h, hc⟩]

@[simp] theorem length_readBytes (m : Memory) (base count : Nat) : (readBytes m base count).length = count := by
  simp [readBytes]

@[simp] theorem getElem_readBytes (m : Memory) (base count k : Nat) (h : k < (readBytes m base count).length) :
    (readBytes m base count)[k] = m.readByte (base + k) := by
  simp [readBytes]

theorem readBytes_zero (m : Memory) (base : Nat) : readBytes m base 0 = [] := rfl

theorem readBytes_succ (m : Memory) (base count : Nat) :
    readBytes m base (count + 1) = m.readByte base :: readBytes m (base + 1) count := by
  simp only [readBytes, List.range_succ_eq_map, List.map_cons, List.map_map, Nat.add_zero]
  congr 1
  exact List.map_congr_left (fun k _ => congrArg m.readByte (by simp; omega))

/-! ### The checked accesses -/

theorem memRead_ok (m : Memory) (a : Nat) (h : a ≤ 0xFFF) : memRead m a = .ok (m.readByte a) := by
  rw [memRead, if_neg (by omega)]

theorem memRead_error (m : Memory) (a : Nat) (h : 0xFFF < a) : memRead m a = .error a := by
  rw [memRead, if_pos h]

theorem resetByte_of_ge (a : Nat) (h : Config.programBase ≤ a) : resetByte a = 0 := by
  rw [resetByte, resetByteWith, if_neg (by omega)]

/-! ### The memory after reset with any font -/

/-- Writing what addresses hold after reset lists nothing. -/
theorem writeBytes_resetBytes (base : Nat) (bytes : List Byte)
    (h : ∀ k (hk : k < bytes.length), bytes[k] = resetByte (base + k)) : writeBytes [] base bytes = [] := by
  induction bytes generalizing base with
  | nil => rfl
  | cons b rest ih =>
    have h0 : b = resetByte base := h 0 (by simp)
    have hw : Memory.writeByte [] base b = [] := by
      rw [Memory.writeByte, if_pos h0]
      split <;> rfl
    rw [writeBytes, hw]
    exact ih (base + 1) (fun k hk => by
      have := h (k + 1) (by simpa using hk)
      rwa [List.getElem_cons_succ, show base + (k + 1) = base + 1 + k by omega] at this)

/-- `fontMemory` is the loop of R240 for every table, the default included. -/
theorem fontMemory_eq (glyphs : FontTable) : fontMemory glyphs = writeBytes [] Config.fontBase.val glyphs.toList := by
  rw [fontMemory]
  split
  · subst glyphs
    have hb := Config.fontBase.isLt
    refine (writeBytes_resetBytes _ _ (fun k hk => ?_)).symm
    have hk80 : k < 80 := by simpa using hk
    rw [resetByte, resetByteWith, if_pos (by simp only [Config.programBase]; omega), if_pos (by omega),
      Nat.add_sub_cancel_left, List.getD_eq_getElem _ _ hk]
  · rfl

@[simp] theorem fontMemory_default : fontMemory defaultFont = [] := if_pos rfl

theorem fontMemory_wf (glyphs : FontTable) : (fontMemory glyphs).wf = true := by
  rw [fontMemory_eq]
  exact writeBytes_wf _ _ _ rfl

/-- Every address holds after reset what R37 says, whatever `FONT_GLYPHS` is. -/
theorem readByte_fontMemory (glyphs : FontTable) (a : Nat) :
    (fontMemory glyphs).readByte a = resetByteWith glyphs Config.fontBase.val a := by
  have hb := Config.fontBase.isLt
  have hl : glyphs.toList.length = 80 := by simp
  have hd : defaultFont.toList.length = 80 := by simp
  rw [fontMemory_eq]
  by_cases h : Config.fontBase.val ≤ a ∧ a < Config.fontBase.val + 80
  · obtain ⟨k, rfl⟩ := Nat.exists_eq_add_of_le h.1
    rw [readByte_writeBytes_inside [] _ k _ rfl (by omega) (by simp only [Config.memSize]; omega), resetByteWith,
      if_pos (by simp only [Config.programBase]; omega), if_pos h.1, Nat.add_sub_cancel_left,
      List.getD_eq_getElem _ _ (by omega)]
  · rw [readByte_writeBytes_outside [] _ a _ rfl (by omega), Memory.readByte_nil, resetByte, resetByteWith,
      resetByteWith]
    split
    · split
      · rw [List.getD_eq_default _ _ (by omega), List.getD_eq_default _ _ (by omega)]
      · rfl
    · rfl

end Sys2Proof.Machine
end

