-- ==== Sys2Proof/Laws/State.lean ====
section
/-! SUPPORT. One lemma per field per update of the state, each true by rfl: no later proof unfolds a record update. -/

namespace Sys2Proof.Machine

variable (s : State)

/-! ### writeV -/

@[simp] theorem State.writeV_v (x : RegIdx) (b : Byte) : (s.writeV x b).v = s.v.set x b := rfl
@[simp] theorem State.writeV_pc (x : RegIdx) (b : Byte) : (s.writeV x b).pc = s.pc := rfl
@[simp] theorem State.writeV_iReg (x : RegIdx) (b : Byte) : (s.writeV x b).iReg = s.iReg := rfl
@[simp] theorem State.writeV_dt (x : RegIdx) (b : Byte) : (s.writeV x b).dt = s.dt := rfl
@[simp] theorem State.writeV_st (x : RegIdx) (b : Byte) : (s.writeV x b).st = s.st := rfl
@[simp] theorem State.writeV_stack (x : RegIdx) (b : Byte) : (s.writeV x b).stack = s.stack := rfl
@[simp] theorem State.writeV_fb (x : RegIdx) (b : Byte) : (s.writeV x b).fb = s.fb := rfl
@[simp] theorem State.writeV_mem (x : RegIdx) (b : Byte) : (s.writeV x b).mem = s.mem := rfl
@[simp] theorem State.writeV_runState (x : RegIdx) (b : Byte) : (s.writeV x b).runState = s.runState := rfl
@[simp] theorem State.writeV_fault (x : RegIdx) (b : Byte) : (s.writeV x b).fault = s.fault := rfl
@[simp] theorem State.writeV_unknownEvents (x : RegIdx) (b : Byte) : (s.writeV x b).unknownEvents = s.unknownEvents := rfl
@[simp] theorem State.writeV_keys (x : RegIdx) (b : Byte) : (s.writeV x b).keys = s.keys := rfl
@[simp] theorem State.writeV_rand (x : RegIdx) (b : Byte) : (s.writeV x b).rand = s.rand := rfl
@[simp] theorem State.writeV_inputs (x : RegIdx) (b : Byte) : (s.writeV x b).inputs = s.inputs := rfl
@[simp] theorem State.writeV_draws (x : RegIdx) (b : Byte) : (s.writeV x b).draws = s.draws := rfl

/-! ### setPc -/

@[simp] theorem State.setPc_v (a : Word) : (s.setPc a).v = s.v := rfl
@[simp] theorem State.setPc_pc (a : Word) : (s.setPc a).pc = a := rfl
@[simp] theorem State.setPc_iReg (a : Word) : (s.setPc a).iReg = s.iReg := rfl
@[simp] theorem State.setPc_dt (a : Word) : (s.setPc a).dt = s.dt := rfl
@[simp] theorem State.setPc_st (a : Word) : (s.setPc a).st = s.st := rfl
@[simp] theorem State.setPc_stack (a : Word) : (s.setPc a).stack = s.stack := rfl
@[simp] theorem State.setPc_fb (a : Word) : (s.setPc a).fb = s.fb := rfl
@[simp] theorem State.setPc_mem (a : Word) : (s.setPc a).mem = s.mem := rfl
@[simp] theorem State.setPc_runState (a : Word) : (s.setPc a).runState = s.runState := rfl
@[simp] theorem State.setPc_fault (a : Word) : (s.setPc a).fault = s.fault := rfl
@[simp] theorem State.setPc_unknownEvents (a : Word) : (s.setPc a).unknownEvents = s.unknownEvents := rfl
@[simp] theorem State.setPc_keys (a : Word) : (s.setPc a).keys = s.keys := rfl
@[simp] theorem State.setPc_rand (a : Word) : (s.setPc a).rand = s.rand := rfl
@[simp] theorem State.setPc_inputs (a : Word) : (s.setPc a).inputs = s.inputs := rfl
@[simp] theorem State.setPc_draws (a : Word) : (s.setPc a).draws = s.draws := rfl

/-! ### setI -/

@[simp] theorem State.setI_v (a : Word) : (s.setI a).v = s.v := rfl
@[simp] theorem State.setI_pc (a : Word) : (s.setI a).pc = s.pc := rfl
@[simp] theorem State.setI_iReg (a : Word) : (s.setI a).iReg = a := rfl
@[simp] theorem State.setI_dt (a : Word) : (s.setI a).dt = s.dt := rfl
@[simp] theorem State.setI_st (a : Word) : (s.setI a).st = s.st := rfl
@[simp] theorem State.setI_stack (a : Word) : (s.setI a).stack = s.stack := rfl
@[simp] theorem State.setI_fb (a : Word) : (s.setI a).fb = s.fb := rfl
@[simp] theorem State.setI_mem (a : Word) : (s.setI a).mem = s.mem := rfl
@[simp] theorem State.setI_runState (a : Word) : (s.setI a).runState = s.runState := rfl
@[simp] theorem State.setI_fault (a : Word) : (s.setI a).fault = s.fault := rfl
@[simp] theorem State.setI_unknownEvents (a : Word) : (s.setI a).unknownEvents = s.unknownEvents := rfl
@[simp] theorem State.setI_keys (a : Word) : (s.setI a).keys = s.keys := rfl
@[simp] theorem State.setI_rand (a : Word) : (s.setI a).rand = s.rand := rfl
@[simp] theorem State.setI_inputs (a : Word) : (s.setI a).inputs = s.inputs := rfl
@[simp] theorem State.setI_draws (a : Word) : (s.setI a).draws = s.draws := rfl

/-! ### setDt -/

@[simp] theorem State.setDt_v (b : Byte) : (s.setDt b).v = s.v := rfl
@[simp] theorem State.setDt_pc (b : Byte) : (s.setDt b).pc = s.pc := rfl
@[simp] theorem State.setDt_iReg (b : Byte) : (s.setDt b).iReg = s.iReg := rfl
@[simp] theorem State.setDt_dt (b : Byte) : (s.setDt b).dt = b := rfl
@[simp] theorem State.setDt_st (b : Byte) : (s.setDt b).st = s.st := rfl
@[simp] theorem State.setDt_stack (b : Byte) : (s.setDt b).stack = s.stack := rfl
@[simp] theorem State.setDt_fb (b : Byte) : (s.setDt b).fb = s.fb := rfl
@[simp] theorem State.setDt_mem (b : Byte) : (s.setDt b).mem = s.mem := rfl
@[simp] theorem State.setDt_runState (b : Byte) : (s.setDt b).runState = s.runState := rfl
@[simp] theorem State.setDt_fault (b : Byte) : (s.setDt b).fault = s.fault := rfl
@[simp] theorem State.setDt_unknownEvents (b : Byte) : (s.setDt b).unknownEvents = s.unknownEvents := rfl
@[simp] theorem State.setDt_keys (b : Byte) : (s.setDt b).keys = s.keys := rfl
@[simp] theorem State.setDt_rand (b : Byte) : (s.setDt b).rand = s.rand := rfl
@[simp] theorem State.setDt_inputs (b : Byte) : (s.setDt b).inputs = s.inputs := rfl
@[simp] theorem State.setDt_draws (b : Byte) : (s.setDt b).draws = s.draws := rfl

/-! ### setSt -/

@[simp] theorem State.setSt_v (b : Byte) : (s.setSt b).v = s.v := rfl
@[simp] theorem State.setSt_pc (b : Byte) : (s.setSt b).pc = s.pc := rfl
@[simp] theorem State.setSt_iReg (b : Byte) : (s.setSt b).iReg = s.iReg := rfl
@[simp] theorem State.setSt_dt (b : Byte) : (s.setSt b).dt = s.dt := rfl
@[simp] theorem State.setSt_st (b : Byte) : (s.setSt b).st = b := rfl
@[simp] theorem State.setSt_stack (b : Byte) : (s.setSt b).stack = s.stack := rfl
@[simp] theorem State.setSt_fb (b : Byte) : (s.setSt b).fb = s.fb := rfl
@[simp] theorem State.setSt_mem (b : Byte) : (s.setSt b).mem = s.mem := rfl
@[simp] theorem State.setSt_runState (b : Byte) : (s.setSt b).runState = s.runState := rfl
@[simp] theorem State.setSt_fault (b : Byte) : (s.setSt b).fault = s.fault := rfl
@[simp] theorem State.setSt_unknownEvents (b : Byte) : (s.setSt b).unknownEvents = s.unknownEvents := rfl
@[simp] theorem State.setSt_keys (b : Byte) : (s.setSt b).keys = s.keys := rfl
@[simp] theorem State.setSt_rand (b : Byte) : (s.setSt b).rand = s.rand := rfl
@[simp] theorem State.setSt_inputs (b : Byte) : (s.setSt b).inputs = s.inputs := rfl
@[simp] theorem State.setSt_draws (b : Byte) : (s.setSt b).draws = s.draws := rfl

/-! ### setStack -/

@[simp] theorem State.setStack_v (l : List Word) : (s.setStack l).v = s.v := rfl
@[simp] theorem State.setStack_pc (l : List Word) : (s.setStack l).pc = s.pc := rfl
@[simp] theorem State.setStack_iReg (l : List Word) : (s.setStack l).iReg = s.iReg := rfl
@[simp] theorem State.setStack_dt (l : List Word) : (s.setStack l).dt = s.dt := rfl
@[simp] theorem State.setStack_st (l : List Word) : (s.setStack l).st = s.st := rfl
@[simp] theorem State.setStack_stack (l : List Word) : (s.setStack l).stack = l := rfl
@[simp] theorem State.setStack_fb (l : List Word) : (s.setStack l).fb = s.fb := rfl
@[simp] theorem State.setStack_mem (l : List Word) : (s.setStack l).mem = s.mem := rfl
@[simp] theorem State.setStack_runState (l : List Word) : (s.setStack l).runState = s.runState := rfl
@[simp] theorem State.setStack_fault (l : List Word) : (s.setStack l).fault = s.fault := rfl
@[simp] theorem State.setStack_unknownEvents (l : List Word) : (s.setStack l).unknownEvents = s.unknownEvents := rfl
@[simp] theorem State.setStack_keys (l : List Word) : (s.setStack l).keys = s.keys := rfl
@[simp] theorem State.setStack_rand (l : List Word) : (s.setStack l).rand = s.rand := rfl
@[simp] theorem State.setStack_inputs (l : List Word) : (s.setStack l).inputs = s.inputs := rfl
@[simp] theorem State.setStack_draws (l : List Word) : (s.setStack l).draws = s.draws := rfl

/-! ### setFb -/

@[simp] theorem State.setFb_v (fb : Framebuffer) : (s.setFb fb).v = s.v := rfl
@[simp] theorem State.setFb_pc (fb : Framebuffer) : (s.setFb fb).pc = s.pc := rfl
@[simp] theorem State.setFb_iReg (fb : Framebuffer) : (s.setFb fb).iReg = s.iReg := rfl
@[simp] theorem State.setFb_dt (fb : Framebuffer) : (s.setFb fb).dt = s.dt := rfl
@[simp] theorem State.setFb_st (fb : Framebuffer) : (s.setFb fb).st = s.st := rfl
@[simp] theorem State.setFb_stack (fb : Framebuffer) : (s.setFb fb).stack = s.stack := rfl
@[simp] theorem State.setFb_fb (fb : Framebuffer) : (s.setFb fb).fb = fb := rfl
@[simp] theorem State.setFb_mem (fb : Framebuffer) : (s.setFb fb).mem = s.mem := rfl
@[simp] theorem State.setFb_runState (fb : Framebuffer) : (s.setFb fb).runState = s.runState := rfl
@[simp] theorem State.setFb_fault (fb : Framebuffer) : (s.setFb fb).fault = s.fault := rfl
@[simp] theorem State.setFb_unknownEvents (fb : Framebuffer) : (s.setFb fb).unknownEvents = s.unknownEvents := rfl
@[simp] theorem State.setFb_keys (fb : Framebuffer) : (s.setFb fb).keys = s.keys := rfl
@[simp] theorem State.setFb_rand (fb : Framebuffer) : (s.setFb fb).rand = s.rand := rfl
@[simp] theorem State.setFb_inputs (fb : Framebuffer) : (s.setFb fb).inputs = s.inputs := rfl
@[simp] theorem State.setFb_draws (fb : Framebuffer) : (s.setFb fb).draws = s.draws := rfl

/-! ### setMem -/

@[simp] theorem State.setMem_v (m : Memory) : (s.setMem m).v = s.v := rfl
@[simp] theorem State.setMem_pc (m : Memory) : (s.setMem m).pc = s.pc := rfl
@[simp] theorem State.setMem_iReg (m : Memory) : (s.setMem m).iReg = s.iReg := rfl
@[simp] theorem State.setMem_dt (m : Memory) : (s.setMem m).dt = s.dt := rfl
@[simp] theorem State.setMem_st (m : Memory) : (s.setMem m).st = s.st := rfl
@[simp] theorem State.setMem_stack (m : Memory) : (s.setMem m).stack = s.stack := rfl
@[simp] theorem State.setMem_fb (m : Memory) : (s.setMem m).fb = s.fb := rfl
@[simp] theorem State.setMem_mem (m : Memory) : (s.setMem m).mem = m := rfl
@[simp] theorem State.setMem_runState (m : Memory) : (s.setMem m).runState = s.runState := rfl
@[simp] theorem State.setMem_fault (m : Memory) : (s.setMem m).fault = s.fault := rfl
@[simp] theorem State.setMem_unknownEvents (m : Memory) : (s.setMem m).unknownEvents = s.unknownEvents := rfl
@[simp] theorem State.setMem_keys (m : Memory) : (s.setMem m).keys = s.keys := rfl
@[simp] theorem State.setMem_rand (m : Memory) : (s.setMem m).rand = s.rand := rfl
@[simp] theorem State.setMem_inputs (m : Memory) : (s.setMem m).inputs = s.inputs := rfl
@[simp] theorem State.setMem_draws (m : Memory) : (s.setMem m).draws = s.draws := rfl

/-! ### setRunState -/

@[simp] theorem State.setRunState_v (r : RunState) : (s.setRunState r).v = s.v := rfl
@[simp] theorem State.setRunState_pc (r : RunState) : (s.setRunState r).pc = s.pc := rfl
@[simp] theorem State.setRunState_iReg (r : RunState) : (s.setRunState r).iReg = s.iReg := rfl
@[simp] theorem State.setRunState_dt (r : RunState) : (s.setRunState r).dt = s.dt := rfl
@[simp] theorem State.setRunState_st (r : RunState) : (s.setRunState r).st = s.st := rfl
@[simp] theorem State.setRunState_stack (r : RunState) : (s.setRunState r).stack = s.stack := rfl
@[simp] theorem State.setRunState_fb (r : RunState) : (s.setRunState r).fb = s.fb := rfl
@[simp] theorem State.setRunState_mem (r : RunState) : (s.setRunState r).mem = s.mem := rfl
@[simp] theorem State.setRunState_runState (r : RunState) : (s.setRunState r).runState = r := rfl
@[simp] theorem State.setRunState_fault (r : RunState) : (s.setRunState r).fault = s.fault := rfl
@[simp] theorem State.setRunState_unknownEvents (r : RunState) : (s.setRunState r).unknownEvents = s.unknownEvents := rfl
@[simp] theorem State.setRunState_keys (r : RunState) : (s.setRunState r).keys = s.keys := rfl
@[simp] theorem State.setRunState_rand (r : RunState) : (s.setRunState r).rand = s.rand := rfl
@[simp] theorem State.setRunState_inputs (r : RunState) : (s.setRunState r).inputs = s.inputs := rfl
@[simp] theorem State.setRunState_draws (r : RunState) : (s.setRunState r).draws = s.draws := rfl

/-! ### samplePorts -/

@[simp] theorem State.samplePorts_v (k : List Nibble) (r : Byte) : (s.samplePorts k r).v = s.v := rfl
@[simp] theorem State.samplePorts_pc (k : List Nibble) (r : Byte) : (s.samplePorts k r).pc = s.pc := rfl
@[simp] theorem State.samplePorts_iReg (k : List Nibble) (r : Byte) : (s.samplePorts k r).iReg = s.iReg := rfl
@[simp] theorem State.samplePorts_dt (k : List Nibble) (r : Byte) : (s.samplePorts k r).dt = s.dt := rfl
@[simp] theorem State.samplePorts_st (k : List Nibble) (r : Byte) : (s.samplePorts k r).st = s.st := rfl
@[simp] theorem State.samplePorts_stack (k : List Nibble) (r : Byte) : (s.samplePorts k r).stack = s.stack := rfl
@[simp] theorem State.samplePorts_fb (k : List Nibble) (r : Byte) : (s.samplePorts k r).fb = s.fb := rfl
@[simp] theorem State.samplePorts_mem (k : List Nibble) (r : Byte) : (s.samplePorts k r).mem = s.mem := rfl
@[simp] theorem State.samplePorts_runState (k : List Nibble) (r : Byte) : (s.samplePorts k r).runState = s.runState := rfl
@[simp] theorem State.samplePorts_fault (k : List Nibble) (r : Byte) : (s.samplePorts k r).fault = s.fault := rfl
@[simp] theorem State.samplePorts_unknownEvents (k : List Nibble) (r : Byte) : (s.samplePorts k r).unknownEvents = s.unknownEvents := rfl
@[simp] theorem State.samplePorts_keys (k : List Nibble) (r : Byte) : (s.samplePorts k r).keys = k := rfl
@[simp] theorem State.samplePorts_rand (k : List Nibble) (r : Byte) : (s.samplePorts k r).rand = r := rfl
@[simp] theorem State.samplePorts_inputs (k : List Nibble) (r : Byte) : (s.samplePorts k r).inputs = s.inputs := rfl
@[simp] theorem State.samplePorts_draws (k : List Nibble) (r : Byte) : (s.samplePorts k r).draws = s.draws := rfl

/-! ### loadRegisters -/

@[simp] theorem State.loadRegisters_v (l : List Byte) : (s.loadRegisters l).v = setRegistersFrom s.v 0 l := rfl
@[simp] theorem State.loadRegisters_pc (l : List Byte) : (s.loadRegisters l).pc = s.pc := rfl
@[simp] theorem State.loadRegisters_iReg (l : List Byte) : (s.loadRegisters l).iReg = s.iReg := rfl
@[simp] theorem State.loadRegisters_dt (l : List Byte) : (s.loadRegisters l).dt = s.dt := rfl
@[simp] theorem State.loadRegisters_st (l : List Byte) : (s.loadRegisters l).st = s.st := rfl
@[simp] theorem State.loadRegisters_stack (l : List Byte) : (s.loadRegisters l).stack = s.stack := rfl
@[simp] theorem State.loadRegisters_fb (l : List Byte) : (s.loadRegisters l).fb = s.fb := rfl
@[simp] theorem State.loadRegisters_mem (l : List Byte) : (s.loadRegisters l).mem = s.mem := rfl
@[simp] theorem State.loadRegisters_runState (l : List Byte) : (s.loadRegisters l).runState = s.runState := rfl
@[simp] theorem State.loadRegisters_fault (l : List Byte) : (s.loadRegisters l).fault = s.fault := rfl
@[simp] theorem State.loadRegisters_unknownEvents (l : List Byte) : (s.loadRegisters l).unknownEvents = s.unknownEvents := rfl
@[simp] theorem State.loadRegisters_keys (l : List Byte) : (s.loadRegisters l).keys = s.keys := rfl
@[simp] theorem State.loadRegisters_rand (l : List Byte) : (s.loadRegisters l).rand = s.rand := rfl
@[simp] theorem State.loadRegisters_inputs (l : List Byte) : (s.loadRegisters l).inputs = s.inputs := rfl
@[simp] theorem State.loadRegisters_draws (l : List Byte) : (s.loadRegisters l).draws = s.draws := rfl

/-! ### raiseFatal -/

@[simp] theorem State.raiseFatal_v (r : FaultRecord) : (s.raiseFatal r).v = s.v := rfl
@[simp] theorem State.raiseFatal_pc (r : FaultRecord) : (s.raiseFatal r).pc = s.pc := rfl
@[simp] theorem State.raiseFatal_iReg (r : FaultRecord) : (s.raiseFatal r).iReg = s.iReg := rfl
@[simp] theorem State.raiseFatal_dt (r : FaultRecord) : (s.raiseFatal r).dt = s.dt := rfl
@[simp] theorem State.raiseFatal_st (r : FaultRecord) : (s.raiseFatal r).st = s.st := rfl
@[simp] theorem State.raiseFatal_stack (r : FaultRecord) : (s.raiseFatal r).stack = s.stack := rfl
@[simp] theorem State.raiseFatal_fb (r : FaultRecord) : (s.raiseFatal r).fb = s.fb := rfl
@[simp] theorem State.raiseFatal_mem (r : FaultRecord) : (s.raiseFatal r).mem = s.mem := rfl
@[simp] theorem State.raiseFatal_runState (r : FaultRecord) : (s.raiseFatal r).runState = .haltedFault := rfl
@[simp] theorem State.raiseFatal_fault (r : FaultRecord) : (s.raiseFatal r).fault = some r := rfl
@[simp] theorem State.raiseFatal_unknownEvents (r : FaultRecord) : (s.raiseFatal r).unknownEvents = s.unknownEvents := rfl
@[simp] theorem State.raiseFatal_keys (r : FaultRecord) : (s.raiseFatal r).keys = s.keys := rfl
@[simp] theorem State.raiseFatal_rand (r : FaultRecord) : (s.raiseFatal r).rand = s.rand := rfl
@[simp] theorem State.raiseFatal_inputs (r : FaultRecord) : (s.raiseFatal r).inputs = s.inputs := rfl
@[simp] theorem State.raiseFatal_draws (r : FaultRecord) : (s.raiseFatal r).draws = s.draws := rfl

/-! ### reportUnknown -/

@[simp] theorem State.reportUnknown_v (w a : Word) : (s.reportUnknown w a).v = s.v := rfl
@[simp] theorem State.reportUnknown_pc (w a : Word) : (s.reportUnknown w a).pc = s.pc := rfl
@[simp] theorem State.reportUnknown_iReg (w a : Word) : (s.reportUnknown w a).iReg = s.iReg := rfl
@[simp] theorem State.reportUnknown_dt (w a : Word) : (s.reportUnknown w a).dt = s.dt := rfl
@[simp] theorem State.reportUnknown_st (w a : Word) : (s.reportUnknown w a).st = s.st := rfl
@[simp] theorem State.reportUnknown_stack (w a : Word) : (s.reportUnknown w a).stack = s.stack := rfl
@[simp] theorem State.reportUnknown_fb (w a : Word) : (s.reportUnknown w a).fb = s.fb := rfl
@[simp] theorem State.reportUnknown_mem (w a : Word) : (s.reportUnknown w a).mem = s.mem := rfl
@[simp] theorem State.reportUnknown_runState (w a : Word) : (s.reportUnknown w a).runState = s.runState := rfl
@[simp] theorem State.reportUnknown_fault (w a : Word) : (s.reportUnknown w a).fault = s.fault := rfl
@[simp] theorem State.reportUnknown_unknownEvents (w a : Word) : (s.reportUnknown w a).unknownEvents = s.unknownEvents ++ [{ word := w, addr := a }] := rfl
@[simp] theorem State.reportUnknown_keys (w a : Word) : (s.reportUnknown w a).keys = s.keys := rfl
@[simp] theorem State.reportUnknown_rand (w a : Word) : (s.reportUnknown w a).rand = s.rand := rfl
@[simp] theorem State.reportUnknown_inputs (w a : Word) : (s.reportUnknown w a).inputs = s.inputs := rfl
@[simp] theorem State.reportUnknown_draws (w a : Word) : (s.reportUnknown w a).draws = s.draws := rfl

/-! ### advance -/

@[simp] theorem State.advance_v : (s.advance).v = s.v := rfl
@[simp] theorem State.advance_pc : (s.advance).pc = s.pc + 2 := rfl
@[simp] theorem State.advance_iReg : (s.advance).iReg = s.iReg := rfl
@[simp] theorem State.advance_dt : (s.advance).dt = s.dt := rfl
@[simp] theorem State.advance_st : (s.advance).st = s.st := rfl
@[simp] theorem State.advance_stack : (s.advance).stack = s.stack := rfl
@[simp] theorem State.advance_fb : (s.advance).fb = s.fb := rfl
@[simp] theorem State.advance_mem : (s.advance).mem = s.mem := rfl
@[simp] theorem State.advance_runState : (s.advance).runState = s.runState := rfl
@[simp] theorem State.advance_fault : (s.advance).fault = s.fault := rfl
@[simp] theorem State.advance_unknownEvents : (s.advance).unknownEvents = s.unknownEvents := rfl
@[simp] theorem State.advance_keys : (s.advance).keys = s.keys := rfl
@[simp] theorem State.advance_rand : (s.advance).rand = s.rand := rfl
@[simp] theorem State.advance_inputs : (s.advance).inputs = s.inputs := rfl
@[simp] theorem State.advance_draws : (s.advance).draws = s.draws := rfl

/-! ### skip -/

@[simp] theorem State.skip_v : (s.skip).v = s.v := rfl
@[simp] theorem State.skip_pc : (s.skip).pc = s.pc + 2 := rfl
@[simp] theorem State.skip_iReg : (s.skip).iReg = s.iReg := rfl
@[simp] theorem State.skip_dt : (s.skip).dt = s.dt := rfl
@[simp] theorem State.skip_st : (s.skip).st = s.st := rfl
@[simp] theorem State.skip_stack : (s.skip).stack = s.stack := rfl
@[simp] theorem State.skip_fb : (s.skip).fb = s.fb := rfl
@[simp] theorem State.skip_mem : (s.skip).mem = s.mem := rfl
@[simp] theorem State.skip_runState : (s.skip).runState = s.runState := rfl
@[simp] theorem State.skip_fault : (s.skip).fault = s.fault := rfl
@[simp] theorem State.skip_unknownEvents : (s.skip).unknownEvents = s.unknownEvents := rfl
@[simp] theorem State.skip_keys : (s.skip).keys = s.keys := rfl
@[simp] theorem State.skip_rand : (s.skip).rand = s.rand := rfl
@[simp] theorem State.skip_inputs : (s.skip).inputs = s.inputs := rfl
@[simp] theorem State.skip_draws : (s.skip).draws = s.draws := rfl

/-! ### push -/

@[simp] theorem State.push_v (e : Word) : (s.push e).v = s.v := rfl
@[simp] theorem State.push_pc (e : Word) : (s.push e).pc = s.pc := rfl
@[simp] theorem State.push_iReg (e : Word) : (s.push e).iReg = s.iReg := rfl
@[simp] theorem State.push_dt (e : Word) : (s.push e).dt = s.dt := rfl
@[simp] theorem State.push_st (e : Word) : (s.push e).st = s.st := rfl
@[simp] theorem State.push_stack (e : Word) : (s.push e).stack = s.stack ++ [e] := rfl
@[simp] theorem State.push_fb (e : Word) : (s.push e).fb = s.fb := rfl
@[simp] theorem State.push_mem (e : Word) : (s.push e).mem = s.mem := rfl
@[simp] theorem State.push_runState (e : Word) : (s.push e).runState = s.runState := rfl
@[simp] theorem State.push_fault (e : Word) : (s.push e).fault = s.fault := rfl
@[simp] theorem State.push_unknownEvents (e : Word) : (s.push e).unknownEvents = s.unknownEvents := rfl
@[simp] theorem State.push_keys (e : Word) : (s.push e).keys = s.keys := rfl
@[simp] theorem State.push_rand (e : Word) : (s.push e).rand = s.rand := rfl
@[simp] theorem State.push_inputs (e : Word) : (s.push e).inputs = s.inputs := rfl
@[simp] theorem State.push_draws (e : Word) : (s.push e).draws = s.draws := rfl

/-! ### dropTop -/

@[simp] theorem State.dropTop_v : (s.dropTop).v = s.v := rfl
@[simp] theorem State.dropTop_pc : (s.dropTop).pc = s.pc := rfl
@[simp] theorem State.dropTop_iReg : (s.dropTop).iReg = s.iReg := rfl
@[simp] theorem State.dropTop_dt : (s.dropTop).dt = s.dt := rfl
@[simp] theorem State.dropTop_st : (s.dropTop).st = s.st := rfl
@[simp] theorem State.dropTop_stack : (s.dropTop).stack = s.stack.dropLast := rfl
@[simp] theorem State.dropTop_fb : (s.dropTop).fb = s.fb := rfl
@[simp] theorem State.dropTop_mem : (s.dropTop).mem = s.mem := rfl
@[simp] theorem State.dropTop_runState : (s.dropTop).runState = s.runState := rfl
@[simp] theorem State.dropTop_fault : (s.dropTop).fault = s.fault := rfl
@[simp] theorem State.dropTop_unknownEvents : (s.dropTop).unknownEvents = s.unknownEvents := rfl
@[simp] theorem State.dropTop_keys : (s.dropTop).keys = s.keys := rfl
@[simp] theorem State.dropTop_rand : (s.dropTop).rand = s.rand := rfl
@[simp] theorem State.dropTop_inputs : (s.dropTop).inputs = s.inputs := rfl
@[simp] theorem State.dropTop_draws : (s.dropTop).draws = s.draws := rfl

/-! ### Reads -/

@[simp] theorem State.readV_eq (x : RegIdx) : s.readV x = s.v[x] := rfl

@[simp] theorem State.top_eq : s.top = s.stack.getLast? := rfl

theorem State.skipIf_eq (c : Bool) : s.skipIf c = s.setPc (if c then s.pc + 2 else s.pc) := by
  cases c <;> rfl

end Sys2Proof.Machine
end

