-- ==== Sys2Proof/Laws/Ops.lean ====
section
/-! SUPPORT. One lemma per shared operation that says everything it can do: the register file as a sequence, the store
at `I`, the digits, the key test, the fetch, the instruction cycle and the step. -/

namespace Sys2Proof.Machine

/-! ### The register file as a sequence -/

/-- What loading registers from `k` upward does to every register. -/
theorem getElem_setRegistersFrom (v : Vector Byte 16) (k : Nat) (bytes : List Byte) (j : Nat) (hj : j < 16) :
    (setRegistersFrom v k bytes)[j] =
      if h : k ≤ j ∧ j - k < bytes.length then bytes[j - k] else v[j] := by
  induction bytes generalizing v k with
  | nil => simp [setRegistersFrom]
  | cons b rest ih =>
    rw [setRegistersFrom, ih]
    by_cases h : k + 1 ≤ j ∧ j - (k + 1) < rest.length
    · have h2 : k ≤ j ∧ j - k < (b :: rest).length := by simp only [List.length_cons]; omega
      rw [dif_pos h, dif_pos h2]
      have h3 : j - k = (j - (k + 1)) + 1 := by omega
      simp [h3]
    · rw [dif_neg h]
      by_cases hk : k = j
      · subst hk; simp
      · have h2 : ¬(k ≤ j ∧ j - k < (b :: rest).length) := by simp only [List.length_cons]; omega
        rw [dif_neg h2]
        simp [hk]

@[simp] theorem length_firstRegisters (s : State) (x : RegIdx) :
    (s.firstRegisters (registerCount x)).length = x.val + 1 := by
  have := x.isLt
  simp only [State.firstRegisters, registerCount, List.length_take, Vector.length_toList]
  omega

theorem getElem_firstRegisters (s : State) (x : RegIdx) (k : Nat)
    (h : k < (s.firstRegisters (registerCount x)).length) (hk : k < 16) :
    (s.firstRegisters (registerCount x))[k] = s.v[k] := by
  simp [State.firstRegisters]

/-! ### The store at `I` -/

@[simp] theorem effectiveAddress_eq (s : State) (k : Nat) : effectiveAddress s k = s.iReg.toNat + k := rfl

/-- A store that fits writes its bytes and nothing else. -/
theorem storeAtI_fits (s : State) (bytes : List Byte) (i : Instr)
    (h : s.iReg.toNat + bytes.length ≤ 0x1000 ∨ bytes.length = 0) :
    storeAtI s bytes i = s.setMem (writeBytes s.mem s.iReg.toNat bytes) := by
  simp only [storeAtI, effectiveAddress_eq, Nat.add_zero, firstOutOfRange_eq_none _ _ h]

/-- A store that does not fit takes a `MemoryFault` at the lowest address above 0xFFF and writes nothing. -/
theorem storeAtI_faults (s : State) (bytes : List Byte) (i : Instr) (h : 0x1000 < s.iReg.toNat + bytes.length)
    (hl : 0 < bytes.length) :
    storeAtI s bytes i = s.raiseExecute .memoryFault (some (max s.iReg.toNat 0x1000)) i := by
  simp only [storeAtI, effectiveAddress_eq, Nat.add_zero, firstOutOfRange_eq_some _ _ h hl]

/-! ### Digits and keys -/

/-- The digits of a byte in VARIABLE mode, written out (R154). -/
theorem digits_variableLength (v : Byte) :
    digits .variableLength v =
      if v.toNat < 10 then [BitVec.ofNat 8 v.toNat]
      else if v.toNat < 100 then [BitVec.ofNat 8 (v.toNat / 10), BitVec.ofNat 8 (v.toNat % 10)]
      else [BitVec.ofNat 8 (v.toNat / 100), BitVec.ofNat 8 (v.toNat / 10 % 10), BitVec.ofNat 8 (v.toNat % 10)] := by
  have hv : v.toNat < 256 := v.isLt
  simp only [digits, digitLoop]
  by_cases h0 : v = 0
  · subst h0; rfl
  · have h1 : v.toNat ≠ 0 := fun h => h0 (BitVec.eq_of_toNat_eq (by simpa using h))
    rw [if_neg h0, if_neg h1]
    by_cases h10 : v.toNat < 10
    · rw [if_pos h10, if_pos (show v.toNat / 10 = 0 by omega), Nat.mod_eq_of_lt h10]
    · rw [if_neg h10, if_neg (show v.toNat / 10 ≠ 0 by omega)]
      by_cases h100 : v.toNat < 100
      · rw [if_pos h100, if_pos (show v.toNat / 10 / 10 = 0 by omega),
          Nat.mod_eq_of_lt (show v.toNat / 10 < 10 by omega)]
      · rw [if_neg h100, if_neg (show v.toNat / 10 / 10 ≠ 0 by omega), Nat.div_div_eq_div_mul,
          Nat.mod_eq_of_lt (show v.toNat / (10 * 10) < 10 by omega)]

/-- A byte has one to three digits, in either mode. -/
theorem length_digits (mode : BcdMode) (v : Byte) : 1 ≤ (digits mode v).length ∧ (digits mode v).length ≤ 3 := by
  cases mode with
  | fixed3 => simp [digits]
  | variableLength => rw [digits_variableLength]; split <;> [simp; (split <;> simp)]

theorem keyPressed_iff (s : State) (code : Byte) : keyPressed s code = true ↔ ∃ k ∈ s.keys, k.setWidth 8 = code := by
  simp [keyPressed]

/-! ### The fetch -/

/-- The fetch at an address both of whose bytes exist. -/
theorem fetch_ok (s : State) (h : s.pc.toNat < 0xFFF) :
    fetch s = .ok (wordOfBytes (s.mem.readByte s.pc.toNat) (s.mem.readByte (s.pc.toNat + 1))) := by
  simp only [fetch, memRead_ok s.mem s.pc.toNat (by omega), memRead_ok s.mem (s.pc.toNat + 1) (by omega)]

/-- The fetch at an address one of whose bytes does not exist: the lowest such address. -/
theorem fetch_error (s : State) (h : 0xFFF ≤ s.pc.toNat) : fetch s = .error (max s.pc.toNat 0x1000) := by
  by_cases h2 : s.pc.toNat = 0xFFF
  · simp only [fetch, h2, memRead_ok s.mem 0xFFF (by omega), memRead_error s.mem (0xFFF + 1) (by omega)]
    rfl
  · simp only [fetch, memRead_error s.mem s.pc.toNat (by omega)]
    rw [Nat.max_eq_left (by omega)]

theorem fetch_congr (s t : State) (hp : s.pc = t.pc) (hm : s.mem = t.mem) : fetch s = fetch t := by
  simp only [fetch, hp, hm]

/-! ### The instruction cycle and the step -/

/-- Everything an instruction cycle can do: a fetch fault, an instruction, or an unknown word. -/
theorem instructionCycle_cases (s : State) :
    (0xFFF ≤ s.pc.toNat ∧ instructionCycle s = .next (s.raiseFetch (max s.pc.toNat 0x1000))) ∨
    (s.pc.toNat < 0xFFF ∧ ∃ w, fetch s = .ok w ∧
      ((∃ i, decodeWord w = .ok i ∧ instructionCycle s = exec i s.advance) ∨
       (∃ e, decodeWord w = .error e ∧ instructionCycle s = .next (s.advance.reportUnknown w s.pc)))) := by
  by_cases h : s.pc.toNat < 0xFFF
  · refine .inr ⟨h, _, fetch_ok s h, ?_⟩
    rw [instructionCycle, instructionCycleBy, fetch_ok s h]
    cases hd : decodeWord (wordOfBytes (s.mem.readByte s.pc.toNat) (s.mem.readByte (s.pc.toNat + 1))) with
    | ok i => exact .inl ⟨i, rfl, by simp only [executeWordBy, hd]⟩
    | error e => exact .inr ⟨e, rfl, by simp only [executeWordBy, hd]⟩
  · exact .inl ⟨by omega, by rw [instructionCycle, instructionCycleBy, fetch_error s (by omega)]⟩

/-- A step with an event queued handles it. -/
theorem step_cons (s : State) (e : HostEvent) (rest : List HostEvent) (h : s.inputs = e :: rest) :
    step s = handleEvent e { s with inputs := rest } := by
  rw [step, takeEvent, nextEvent, dropEvent, h]

/-- A step with no event queued handles a drawn one. -/
theorem step_nil (s : State) (h : s.inputs = []) :
    step s = handleEvent (drawnEvent s.draws) { s with draws := s.draws + 1 } := by
  rw [step, takeEvent, nextEvent, dropEvent, h]

/-- Every step handles one event, in a state that differs from `s` in the queue and the draws alone. -/
theorem step_cases (s : State) :
    ∃ e q d, step s = handleEvent e { s with inputs := q, draws := d } ∧
      (s.inputs = e :: q ∨ (s.inputs = [] ∧ e = drawnEvent s.draws)) := by
  cases h : s.inputs with
  | nil => exact ⟨_, [], s.draws + 1, by rw [step_nil s h, ← h], .inr ⟨rfl, rfl⟩⟩
  | cons e rest => exact ⟨e, rest, s.draws, step_cons s e rest h, .inl rfl⟩

/-- The drawn events: a cycle, a tick or a stop. -/
theorem drawnEvent_cases (n : Nat) :
    drawnEvent n = .cycleStrobe ((Config.keySample n).map (fun k => k.setWidth 8)) (Config.randByte n) ∨
      drawnEvent n = .tickStrobe ∨ drawnEvent n = .stop := by
  rw [drawnEvent]
  cases nextAgent n
  · exact .inl rfl
  · exact .inr (.inl rfl)
  · exact .inr (.inr rfl)

/-- Everything a cycle strobe can do. -/
theorem onCycleStrobe_cases (codes : List Byte) (r : Byte) (s : State) :
    (s.runState ≠ .running ∧ onCycleStrobe exec codes r s = .next s) ∨
    (s.runState = .running ∧ onCycleStrobe exec codes r s = instructionCycle (s.samplePorts (keyCodes codes) r)) ∨
    (s.runState = .running ∧ onCycleStrobe exec codes r s = .refused .keyCodeOutOfContract) := by
  by_cases h : s.runState = .running
  · rw [onCycleStrobe, if_pos h, ← instructionCycle]
    by_cases hk : (keySampleWellFormed codes || !samplesKeys s) = true
    · exact .inr (.inl ⟨h, by rw [if_pos hk]⟩)
    · exact .inr (.inr ⟨h, by rw [if_neg hk]⟩)
  · exact .inl ⟨h, by rw [onCycleStrobe, if_neg h]⟩

/-- A sample taken from 4-bit codes is within the contract and comes back as it was. -/
theorem keySampleWellFormed_map (keys : List Nibble) :
    keySampleWellFormed (keys.map (fun k => k.setWidth 8)) = true := by
  simp only [keySampleWellFormed, List.all_map, List.all_eq_true, Function.comp, keyCodeWellFormed, decide_eq_true_eq]
  intro k _
  have : (k.setWidth 8).toNat = k.toNat := by
    rw [BitVec.toNat_setWidth]; exact Nat.mod_eq_of_lt (by have := k.isLt; omega)
  have := k.isLt
  omega

theorem keyCodes_map (keys : List Nibble) : keyCodes (keys.map (fun k => k.setWidth 8)) = keys := by
  rw [keyCodes, List.map_map]
  conv_rhs => rw [← List.map_id keys]
  refine List.map_congr_left (fun k _ => ?_)
  simp

end Sys2Proof.Machine
end

