-- ==== Sys2Proof/Laws/PerInstr.lean ====
section
/-! SUPPORT. The per-instruction family TableRow: the word of each instruction is selected by its row of the opcode
table. -/

namespace Sys2Proof

theorem word4_and_F000 (op x y n : Nibble) : word4 op x y n &&& 0xF000 = word4 op 0 0 0 := by
  apply BitVec.eq_of_getLsbD_eq
  intro i hi
  simp only [word4, BitVec.getLsbD_and, BitVec.getLsbD_append]
  interval_cases i <;> simp

theorem word4_and_F00F (op x y n : Nibble) : word4 op x y n &&& 0xF00F = word4 op 0 0 n := by
  apply BitVec.eq_of_getLsbD_eq
  intro i hi
  simp only [word4, BitVec.getLsbD_and, BitVec.getLsbD_append]
  interval_cases i <;> simp

theorem word4_and_F0FF (op x y n : Nibble) : word4 op x y n &&& 0xF0FF = word4 op 0 y n := by
  apply BitVec.eq_of_getLsbD_eq
  intro i hi
  simp only [word4, BitVec.getLsbD_and, BitVec.getLsbD_append]
  interval_cases i <;> simp

theorem wordXNN_and_F000 (op : Nibble) (x : RegIdx) (nn : Byte) :
    wordXNN op x nn &&& 0xF000 = wordXNN op 0 0 := by
  apply BitVec.eq_of_getLsbD_eq
  intro i hi
  simp only [wordXNN, BitVec.getLsbD_and, BitVec.getLsbD_append]
  interval_cases i <;> simp [nibbleOf]

theorem wordXNN_and_F0FF (op : Nibble) (x : RegIdx) (nn : Byte) :
    wordXNN op x nn &&& 0xF0FF = wordXNN op 0 nn := by
  apply BitVec.eq_of_getLsbD_eq
  intro i hi
  simp only [wordXNN, BitVec.getLsbD_and, BitVec.getLsbD_append]
  interval_cases i <;> simp [nibbleOf]

theorem wordNNN_and_F000 (op : Nibble) (nnn : Addr12) : wordNNN op nnn &&& 0xF000 = wordNNN op 0 := by
  apply BitVec.eq_of_getLsbD_eq
  intro i hi
  simp only [wordNNN, BitVec.getLsbD_and, BitVec.getLsbD_append]
  interval_cases i <;> simp

/-- The word of an instruction is selected by the instruction's row of the opcode table (R75, R94). -/
def Laws.TableRow.Statement (i : Instr) : Prop := rowSelects (rowOf i) (encode i) = true

namespace Laws.TableRow

theorem statement_of_and (i : Instr) (w : Word) (h : encode i &&& (rowOf i).mask = w)
    (hw : (w == (rowOf i).pattern) = true) : Statement i := by
  rw [Statement, rowSelects, h]; exact hw

theorem cls (x : Nibble) : Statement (.cls x) :=
  statement_of_and _ _ (word4_and_F0FF 0x0 x 0xE 0x0) rfl

theorem ret (x : Nibble) : Statement (.ret x) :=
  statement_of_and _ _ (word4_and_F0FF 0x0 x 0xE 0xE) rfl

theorem jump (nnn : Addr12) : Statement (.jump nnn) :=
  statement_of_and _ _ (wordNNN_and_F000 0x1 nnn) rfl

theorem call (nnn : Addr12) : Statement (.call nnn) :=
  statement_of_and _ _ (wordNNN_and_F000 0x2 nnn) rfl

theorem skipEqNn (x : RegIdx) (nn : Byte) : Statement (.skipEqNn x nn) :=
  statement_of_and _ _ (wordXNN_and_F000 0x3 x nn) rfl

theorem skipNeNn (x : RegIdx) (nn : Byte) : Statement (.skipNeNn x nn) :=
  statement_of_and _ _ (wordXNN_and_F000 0x4 x nn) rfl

theorem skipEqVy (x : RegIdx) (y : RegIdx) (n : Nibble) : Statement (.skipEqVy x y n) :=
  statement_of_and _ _ (word4_and_F000 0x5 (nibbleOf x) (nibbleOf y) n) rfl

theorem setVx (x : RegIdx) (nn : Byte) : Statement (.setVx x nn) :=
  statement_of_and _ _ (wordXNN_and_F000 0x6 x nn) rfl

theorem addVx (x : RegIdx) (nn : Byte) : Statement (.addVx x nn) :=
  statement_of_and _ _ (wordXNN_and_F000 0x7 x nn) rfl

theorem setReg (x : RegIdx) (y : RegIdx) : Statement (.setReg x y) :=
  statement_of_and _ _ (word4_and_F00F 0x8 (nibbleOf x) (nibbleOf y) 0x0) rfl

theorem orReg (x : RegIdx) (y : RegIdx) : Statement (.orReg x y) :=
  statement_of_and _ _ (word4_and_F00F 0x8 (nibbleOf x) (nibbleOf y) 0x1) rfl

theorem andReg (x : RegIdx) (y : RegIdx) : Statement (.andReg x y) :=
  statement_of_and _ _ (word4_and_F00F 0x8 (nibbleOf x) (nibbleOf y) 0x2) rfl

theorem xorReg (x : RegIdx) (y : RegIdx) : Statement (.xorReg x y) :=
  statement_of_and _ _ (word4_and_F00F 0x8 (nibbleOf x) (nibbleOf y) 0x3) rfl

theorem addReg (x : RegIdx) (y : RegIdx) : Statement (.addReg x y) :=
  statement_of_and _ _ (word4_and_F00F 0x8 (nibbleOf x) (nibbleOf y) 0x4) rfl

theorem subVx (x : RegIdx) (y : RegIdx) : Statement (.subVx x y) :=
  statement_of_and _ _ (word4_and_F00F 0x8 (nibbleOf x) (nibbleOf y) 0x5) rfl

theorem shiftRight (x : RegIdx) (y : Nibble) : Statement (.shiftRight x y) :=
  statement_of_and _ _ (word4_and_F00F 0x8 (nibbleOf x) y 0x6) rfl

theorem subVy (x : RegIdx) (y : RegIdx) : Statement (.subVy x y) :=
  statement_of_and _ _ (word4_and_F00F 0x8 (nibbleOf x) (nibbleOf y) 0x7) rfl

theorem shiftLeft (x : RegIdx) (y : Nibble) : Statement (.shiftLeft x y) :=
  statement_of_and _ _ (word4_and_F00F 0x8 (nibbleOf x) y 0xE) rfl

theorem skipNeVy (x : RegIdx) (y : RegIdx) (n : Nibble) : Statement (.skipNeVy x y n) :=
  statement_of_and _ _ (word4_and_F000 0x9 (nibbleOf x) (nibbleOf y) n) rfl

theorem setI (nnn : Addr12) : Statement (.setI nnn) :=
  statement_of_and _ _ (wordNNN_and_F000 0xA nnn) rfl

theorem jumpOffset (nnn : Addr12) : Statement (.jumpOffset nnn) :=
  statement_of_and _ _ (wordNNN_and_F000 0xB nnn) rfl

theorem rand (x : RegIdx) (nn : Byte) : Statement (.rand x nn) :=
  statement_of_and _ _ (wordXNN_and_F000 0xC x nn) rfl

theorem draw (x : RegIdx) (y : RegIdx) (n : RowCount) : Statement (.draw x y n) :=
  statement_of_and _ _ (word4_and_F000 0xD (nibbleOf x) (nibbleOf y) (BitVec.ofFin n)) rfl

theorem skipKey (x : RegIdx) : Statement (.skipKey x) :=
  statement_of_and _ _ (wordXNN_and_F0FF 0xE x 0x9E) rfl

theorem skipNotKey (x : RegIdx) : Statement (.skipNotKey x) :=
  statement_of_and _ _ (wordXNN_and_F0FF 0xE x 0xA1) rfl

theorem getDelay (x : RegIdx) : Statement (.getDelay x) :=
  statement_of_and _ _ (wordXNN_and_F0FF 0xF x 0x07) rfl

theorem getKey (x : RegIdx) : Statement (.getKey x) :=
  statement_of_and _ _ (wordXNN_and_F0FF 0xF x 0x0A) rfl

theorem setDelay (x : RegIdx) : Statement (.setDelay x) :=
  statement_of_and _ _ (wordXNN_and_F0FF 0xF x 0x15) rfl

theorem setSound (x : RegIdx) : Statement (.setSound x) :=
  statement_of_and _ _ (wordXNN_and_F0FF 0xF x 0x18) rfl

theorem addI (x : RegIdx) : Statement (.addI x) :=
  statement_of_and _ _ (wordXNN_and_F0FF 0xF x 0x1E) rfl

theorem fontChar (x : RegIdx) : Statement (.fontChar x) :=
  statement_of_and _ _ (wordXNN_and_F0FF 0xF x 0x29) rfl

theorem bcd (x : RegIdx) : Statement (.bcd x) :=
  statement_of_and _ _ (wordXNN_and_F0FF 0xF x 0x33) rfl

theorem storeRegs (x : RegIdx) : Statement (.storeRegs x) :=
  statement_of_and _ _ (wordXNN_and_F0FF 0xF x 0x55) rfl

theorem loadRegs (x : RegIdx) : Statement (.loadRegs x) :=
  statement_of_and _ _ (wordXNN_and_F0FF 0xF x 0x65) rfl

end Laws.TableRow
end Sys2Proof
end

