-- ==== Sys2Proof/Laws/Progress.lean ====
section
/-! SUPPORT. Progress (spec/60_exceptions.md R219): the drawn order lets both agents move again and again, no drawn step
blocks, and so every endless run is fair. And what each parameter of spec/00_scope.md R7 changes. -/

namespace Sys2Proof.Machine

/-! ### The drawn order -/

/-- The moves of rounds `k` to `k + j - 1`, how many they are. -/
def movesBefore : Nat → Nat → Nat
  | _, 0 => 0
  | k, j + 1 => (movesOf k).length + movesBefore (k + 1) j

theorem length_movesOf (k : Nat) : (movesOf k).length = (Config.freeMoves k).length + 2 := by simp [movesOf]

theorem le_movesBefore (k j : Nat) : j ≤ movesBefore k j := by
  induction j generalizing k with
  | zero => exact Nat.zero_le _
  | succ j ih =>
    have := ih (k + 1)
    rw [movesBefore, length_movesOf]
    omega

/-- The move at place `i` of round `k + j`. -/
theorem moveFrom_eq (j rounds k i : Nat) (hr : movesBefore k j + i < rounds) (hi : i < (movesOf (k + j)).length) :
    moveFrom rounds k (movesBefore k j + i) = (movesOf (k + j)).getD i .engine := by
  induction j generalizing rounds k with
  | zero =>
    cases rounds with
    | zero => omega
    | succ rounds =>
      simp only [movesBefore, Nat.zero_add, Nat.add_zero] at hi ⊢
      rw [moveFrom, if_pos hi]
  | succ j ih =>
    cases rounds with
    | zero => omega
    | succ rounds =>
      have hl := length_movesOf k
      rw [movesBefore] at hr ⊢
      rw [moveFrom, if_neg (by omega), Nat.add_assoc, Nat.add_sub_cancel_left,
        ih rounds (k + 1) (by omega) (by rwa [show k + 1 + j = k + (j + 1) by omega]),
        show k + 1 + j = k + (j + 1) by omega]

/-- The place `i` of round `j` in the whole order. -/
theorem nextAgent_eq (j i : Nat) (hi : i < (movesOf j).length) :
    nextAgent (movesBefore 0 j + i) = (movesOf j).getD i .engine := by
  have h := moveFrom_eq j (movesBefore 0 j + i + 1) 0 i (by omega) (by rwa [Nat.zero_add])
  rwa [Nat.zero_add] at h

/-- The engine is drawn again after any draw. -/
theorem engine_drawn_again (n : Nat) : ∃ m, n ≤ m ∧ nextAgent m = .engine := by
  have := le_movesBefore 0 n
  refine ⟨movesBefore 0 n + (Config.freeMoves n).length, by omega, ?_⟩
  rw [nextAgent_eq n _ (by rw [length_movesOf]; omega)]
  simp [movesOf]

/-- The timer is drawn again after any draw. -/
theorem timer_drawn_again (n : Nat) : ∃ m, n ≤ m ∧ nextAgent m = .timer := by
  have := le_movesBefore 0 n
  refine ⟨movesBefore 0 n + ((Config.freeMoves n).length + 1), by omega, ?_⟩
  rw [nextAgent_eq n _ (by rw [length_movesOf]; omega)]
  simp [movesOf]

/-! ### The host's side is the step's alone -/

theorem storeAtI_host (s : State) (bytes : List Byte) (i : Instr) :
    (storeAtI s bytes i).inputs = s.inputs ∧ (storeAtI s bytes i).draws = s.draws := by
  rw [storeAtI]
  split <;> exact ⟨rfl, rfl⟩

theorem skipIf_host (s : State) (c : Bool) : (s.skipIf c).inputs = s.inputs ∧ (s.skipIf c).draws = s.draws := by
  rw [State.skipIf]
  split <;> exact ⟨rfl, rfl⟩

/-- No instruction touches the queue or the draws. -/
theorem exec_host (i : Instr) (s t : State) (h : exec i s = .next t) : t.inputs = s.inputs ∧ t.draws = s.draws := by
  cases i <;> simp only [exec] at h <;> cases h <;>
    first
    | exact ⟨rfl, rfl⟩
    | exact storeAtI_host _ _ _
    | exact skipIf_host _ _
    | (split <;> exact ⟨rfl, rfl⟩)

/-- A cycle answers a next state, and touches neither the queue nor the draws. -/
theorem instructionCycle_host (s : State) :
    ∃ t, instructionCycle s = .next t ∧ t.inputs = s.inputs ∧ t.draws = s.draws := by
  rcases instructionCycle_cases s with ⟨_, h⟩ | ⟨_, w, _, ⟨i, _, h⟩ | ⟨e, _, h⟩⟩
  · exact ⟨_, h, rfl, rfl⟩
  · have hx : ∃ t, exec i s.advance = .next t := by cases i <;> exact ⟨_, rfl⟩
    obtain ⟨t, ht⟩ := hx
    have hk := exec_host i s.advance t ht
    exact ⟨t, h.trans ht, hk.1, hk.2⟩
  · exact ⟨_, h, rfl, rfl⟩

/-- No event changes the queue or the draws when it is handled. -/
theorem handleEvent_host (e : HostEvent) (s t : State) (h : handleEvent e s = .next t) :
    t.inputs = s.inputs ∧ t.draws = s.draws := by
  cases e with
  | cycleStrobe codes r =>
    replace h : onCycleStrobe exec codes r s = .next t := h
    rcases onCycleStrobe_cases codes r s with ⟨_, hc⟩ | ⟨_, hc⟩ | ⟨_, hc⟩ <;> rw [hc] at h
    · cases h; exact ⟨rfl, rfl⟩
    · obtain ⟨u, hu, hh⟩ := instructionCycle_host (s.samplePorts (keyCodes codes) r)
      rw [hu] at h; cases h; exact hh
    · cases h
  | tickStrobe =>
    replace h : onTickStrobe timerTick s = .next t := h
    rw [onTickStrobe] at h; cases h; split <;> exact ⟨rfl, rfl⟩
  | stop =>
    replace h : onStop s = .next t := h
    rw [onStop] at h; cases h; split <;> exact ⟨rfl, rfl⟩
  | start =>
    replace h : onStart s = .next t := h
    rw [onStart] at h; cases h; split <;> exact ⟨rfl, rfl⟩
  | reset =>
    replace h : onReset defaultFont s = .next t := h
    rw [onReset] at h; cases h; exact ⟨rfl, rfl⟩
  | romLoad image =>
    replace h : onRomLoad image s = .next t := h
    rw [onRomLoad] at h
    split at h
    · cases h; rw [loadImage]; split <;> exact ⟨rfl, rfl⟩
    · cases h

/-! ### No drawn step blocks -/

/-- With no event queued the step answers a next state (R219). -/
theorem step_nil_answers (s : State) (h : s.inputs = []) : ∃ t, step s = .next t := by
  rw [step_nil s h]
  rcases drawnEvent_cases s.draws with he | he | he <;> rw [he]
  · show ∃ t, onCycleStrobe exec _ _ _ = .next t
    rw [onCycleStrobe, keySampleWellFormed_map, Bool.true_or, if_pos rfl]
    split
    · obtain ⟨t, ht, _⟩ := instructionCycle_host
        (State.samplePorts { s with draws := s.draws + 1 }
          (keyCodes ((Config.keySample s.draws).map (fun k => k.setWidth 8))) (Config.randByte s.draws))
      exact ⟨t, ht⟩
    · exact ⟨_, rfl⟩
  · exact ⟨_, rfl⟩
  · exact ⟨_, rfl⟩

/-! ### Every endless run is fair -/

theorem step_host_cons (s t : State) (e : HostEvent) (rest : List HostEvent) (h : s.inputs = e :: rest)
    (hs : step s = .next t) : t.inputs = rest := by
  rw [step_cons s e rest h] at hs
  exact (handleEvent_host _ _ _ hs).1

theorem step_host_nil (s t : State) (h : s.inputs = []) (hs : step s = .next t) :
    t.inputs = [] ∧ t.draws = s.draws + 1 := by
  rw [step_nil s h] at hs
  have := handleEvent_host _ _ _ hs
  exact ⟨this.1.trans h, this.2⟩

/-- The host's queue runs out. -/
theorem queue_runs_out (run : Nat → State) (hr : IsRun run) (n : Nat) : ∃ m, n ≤ m ∧ (run m).inputs = [] := by
  generalize hq : (run n).inputs = q
  induction q generalizing n with
  | nil => exact ⟨n, Nat.le_refl n, hq⟩
  | cons e rest ih =>
    obtain ⟨m, hm, h⟩ := ih (n + 1) (step_host_cons _ _ e rest hq (hr n))
    exact ⟨m, by omega, h⟩

/-- From then on each step is one draw. -/
theorem draws_from (run : Nat → State) (hr : IsRun run) (n : Nat) (h : (run n).inputs = []) (j : Nat) :
    (run (n + j)).inputs = [] ∧ (run (n + j)).draws = (run n).draws + j := by
  induction j with
  | zero => exact ⟨h, rfl⟩
  | succ j ih =>
    have := step_host_nil _ _ ih.1 (hr (n + j))
    exact ⟨this.1, by rw [← Nat.add_assoc n, this.2, ih.2]; rfl⟩

/-- An agent that is drawn again and again moves again and again. -/
theorem agent_moves_again (run : Nat → State) (hr : IsRun run) (a : Agent)
    (ha : ∀ n, ∃ m, n ≤ m ∧ nextAgent m = a) (n : Nat) :
    ∃ m, n ≤ m ∧ ∃ keys r, nextEvent (run m) = agentEvent a keys r := by
  obtain ⟨k, hk, hq⟩ := queue_runs_out run hr n
  obtain ⟨d, hd, hda⟩ := ha (run k).draws
  obtain ⟨j, rfl⟩ := Nat.exists_eq_add_of_le hd
  have hj := draws_from run hr k hq j
  exact ⟨k + j, by omega, Config.keySample ((run k).draws + j), Config.randByte ((run k).draws + j), by
    rw [nextEvent, hj.1, hj.2, drawnEvent, hda]⟩

/-- Both agents keep moving in every endless run (R219). -/
theorem run_isFair (run : Nat → State) (hr : IsRun run) : IsFair run where
  engine n := by
    obtain ⟨m, hm, keys, r, h⟩ := agent_moves_again run hr .engine engine_drawn_again n
    exact ⟨m, hm, _, _, h⟩
  timer n := by
    obtain ⟨m, hm, _, _, h⟩ := agent_moves_again run hr .timer timer_drawn_again n
    exact ⟨m, hm, h⟩

/-! ### The default font -/

@[simp] theorem resetWith_default : State.resetWith defaultFont = State.reset := by
  rw [State.resetWith, fontMemory_default]
  rfl

/-- Any other font is the loop of R240 over the reset state. -/
theorem readByte_resetWith (glyphs : FontTable) (a : Nat) :
    (State.resetWith glyphs).mem.readByte a = resetByteWith glyphs Config.fontBase.val a :=
  readByte_fontMemory glyphs a

@[simp] theorem reinitialize_default (s : State) :
    s.reinitialize defaultFont =
      { State.reset with keys := s.keys, rand := s.rand, inputs := s.inputs, draws := s.draws } := by
  rw [State.reinitialize, resetWith_default]

/-! ### The parameters (spec/00_scope.md R7, R8) -/

/-- Only BCD and CALL read a parameter in their execute phase. -/
theorem execWith_eq (p : Parameters) (i : Instr) (s : State) (hb : ∀ x, i ≠ .bcd x) (hc : ∀ nnn, i ≠ .call nnn) :
    execWith p i s = exec i s := by
  cases i <;> first | rfl | exact absurd rfl (hb _) | exact absurd rfl (hc _)

/-- With this spec's values the execute phase is `exec`. -/
@[simp] theorem execWith_spec : execWith specParameters = exec := by
  funext i s
  cases i <;> rfl

/-- With this spec's values the step is `step`. -/
@[simp] theorem takeEventWith_spec : takeEventWith specParameters = step := by
  funext s
  rw [takeEventWith, handleEventWith, execWith_spec]
  rfl

/-- A tick reads `SOUND_TIMER_DECREMENTS` alone. -/
theorem handleEventWith_tick (p : Parameters) (s : State) :
    handleEventWith p .tickStrobe s = onTickStrobe (timerTickWith p.soundTimerDecrements) s := rfl

/-- A cycle reads what its execute phase reads. -/
theorem handleEventWith_cycle (p : Parameters) (codes : List Byte) (r : Byte) (s : State) :
    handleEventWith p (.cycleStrobe codes r) s = onCycleStrobe (execWith p) codes r s := rfl

/-- A reset reads `FONT_GLYPHS` alone. -/
theorem handleEventWith_reset (p : Parameters) (s : State) :
    handleEventWith p .reset s = .next (s.reinitialize p.font) := rfl

/-- The other events read no parameter. -/
theorem handleEventWith_host (p : Parameters) (e : HostEvent) (s : State)
    (h : e = .stop ∨ e = .start ∨ ∃ image, e = .romLoad image) : handleEventWith p e s = handleEvent e s := by
  rcases h with rfl | rfl | ⟨image, rfl⟩ <;> rfl

/-- BCD in either mode, when its digits fit: they are stored, and nothing else changes (R153). -/
theorem execBcdWith_fits (mode : BcdMode) (x : RegIdx) (s : State)
    (h : s.iReg.toNat + (digits mode (s.readV x)).length ≤ 0x1000) :
    execBcdWith mode x s = .next (s.setMem (writeBytes s.mem s.iReg.toNat (digits mode (s.readV x)))) := by
  rw [execBcdWith, storeAtI_fits _ _ _ (.inl h)]

/-- BCD in either mode, when its digits do not fit: a `MemoryFault`, nothing written (R153). -/
theorem execBcdWith_faults (mode : BcdMode) (x : RegIdx) (s : State)
    (h : 0x1000 < s.iReg.toNat + (digits mode (s.readV x)).length) :
    execBcdWith mode x s = .next (s.raiseExecute .memoryFault (some (max s.iReg.toNat 0x1000)) (.bcd x)) := by
  rw [execBcdWith, storeAtI_faults _ _ _ h (length_digits mode _).1]

end Sys2Proof.Machine
end

