-- ==== Sys2Proof/Machine/Schedule.lean ====
section
/-! DEFINITION. The deterministic schedule of spec/60_exceptions.md R218, for running examples: one of those R217
admits. No other definition uses it. -/

namespace Sys2Proof.Machine

/-- Is tick `m` due no later than cycle `n`? Tick `m` is due at `m / TIMER_HZ`, cycle `n` at `n / CPU_HZ`, and at a
tie the tick runs first (R218; decision D25). -/
def tickRunsFirst (cpuHz n m : Nat) : Bool := m * cpuHz ≤ n * Config.timerHz

/-- The next `count` steps, cycle `n` and tick `m` being the next of their kind; a run starts with `n = 0` and
`m = 1` (R218). -/
def schedule (cpuHz : Nat) : Nat → Nat → Nat → List Agent
  | 0, _, _ => []
  | count + 1, n, m =>
    if tickRunsFirst cpuHz n m then .timer :: schedule cpuHz count n (m + 1)
    else .engine :: schedule cpuHz count (n + 1) m

end Sys2Proof.Machine
end

