-- ==== Sys2Proof/Tests/Slice0.lean ====
section
/-! SUPPORT. Tests and witnesses. Expected values are those of spec/95_test_vectors.md (S and V numbers) and the
encodings of spec/30_encoding.md, not the model's own answers. -/

open Sys2Proof Sys2Proof.Machine

namespace Sys2Proof.Tests

/-! ### Small states -/

/-- The next state of an outcome, if there is one. -/
def answer (o : Host.Outcome State Fault Refusal) : Option State :=
  match o with
  | .next t => some t
  | .fault _ => none
  | .refused _ => none

/-- The start state of the vectors: reset, and RUNNING. -/
def running : State := { State.reset with runState := .running }

/-- Run one instruction word by one step. -/
def runWord (w : Nat) (s : State) : Option State := answer (step (s.withFetchWord 16 w))

/-- The start state with two registers set. -/
def regs2 (x : RegIdx) (a : Byte) (y : RegIdx) (b : Byte) : State := (running.writeV x a).writeV y b

/-- The start state with `I`, a register and some memory set. -/
def indexed (i : Word) (x : RegIdx) (a : Byte) (m : Memory) : State :=
  { running.writeV x a with iReg := i, mem := m }

/-- Two registers of the state after a word. -/
def seeV (w : Nat) (s : State) (x y : RegIdx) : Option (Byte × Byte) := (runWord w s).map (fun t => (t.v[x], t.v[y]))

/-- `pc` after a word. -/
def seePc (w : Nat) (s : State) : Option Word := (runWord w s).map (fun t => t.pc)

/-- Three bytes of memory after a word. -/
def seeMem (w : Nat) (s : State) (a : Nat) : Option (List Byte) :=
  (runWord w s).map (fun t => [t.mem.readByte a, t.mem.readByte (a + 1), t.mem.readByte (a + 2)])

/-- The fault record after a word, with `pc`. -/
def seeFault (w : Nat) (s : State) : Option (Option FaultRecord × Word) :=
  (runWord w s).map (fun t => (t.fault, t.pc))

/-- The columns of the pixels that are on in a row. -/
def onIn (t : State) (y : Fin 32) : List Nat := (List.range 64).filter (fun x => (t.fb[y]).toList.getD x false)

/-- The pixels that are on in a row after a word, and VF. -/
def seeRow (w : Nat) (s : State) (y : Fin 32) : Option (List Nat × Byte) :=
  (runWord w s).map (fun t => (onIn t y, t.v[15]))

/-! ### Decoding: words written out from R75 to R80 -/

theorem test_decode_family_0 : decodeWord 0x00E0 = .ok (.cls 0) ∧ decodeWord 0x05EE = .ok (.ret 5) := ⟨rfl, rfl⟩

theorem test_decode_jump_call : decodeWord 0x1228 = .ok (.jump 0x228) ∧ decodeWord 0x2300 = .ok (.call 0x300) ∧
    decodeWord 0xBFFF = .ok (.jumpOffset 0xFFF) := ⟨rfl, rfl, rfl⟩

theorem test_decode_skips : decodeWord 0x3228 = .ok (.skipEqNn 2 0x28) ∧ decodeWord 0x4228 = .ok (.skipNeNn 2 0x28) ∧
    decodeWord 0x5123 = .ok (.skipEqVy 1 2 3) ∧ decodeWord 0x912F = .ok (.skipNeVy 1 2 0xF) := ⟨rfl, rfl, rfl, rfl⟩

theorem test_decode_immediates : decodeWord 0x6A2C = .ok (.setVx 10 0x2C) ∧ decodeWord 0x730A = .ok (.addVx 3 0x0A) ∧
    decodeWord 0xA123 = .ok (.setI 0x123) ∧ decodeWord 0xC30F = .ok (.rand 3 0x0F) := ⟨rfl, rfl, rfl, rfl⟩

theorem test_decode_family_8 : decodeWord 0x8150 = .ok (.setReg 1 5) ∧ decodeWord 0x8121 = .ok (.orReg 1 2) ∧
    decodeWord 0x8122 = .ok (.andReg 1 2) ∧ decodeWord 0x8123 = .ok (.xorReg 1 2) ∧
    decodeWord 0x8F14 = .ok (.addReg 15 1) ∧ decodeWord 0x8015 = .ok (.subVx 0 1) ∧
    decodeWord 0x8016 = .ok (.shiftRight 0 1) ∧ decodeWord 0x8017 = .ok (.subVy 0 1) ∧
    decodeWord 0x801E = .ok (.shiftLeft 0 1) := ⟨rfl, rfl, rfl, rfl, rfl, rfl, rfl, rfl, rfl⟩

theorem test_decode_draw_and_keys : decodeWord 0xD125 = .ok (.draw 1 2 5) ∧ decodeWord 0xE59E = .ok (.skipKey 5) ∧
    decodeWord 0xE5A1 = .ok (.skipNotKey 5) := ⟨rfl, rfl, rfl⟩

theorem test_decode_family_F : decodeWord 0xF307 = .ok (.getDelay 3) ∧ decodeWord 0xF30A = .ok (.getKey 3) ∧
    decodeWord 0xF115 = .ok (.setDelay 1) ∧ decodeWord 0xF118 = .ok (.setSound 1) ∧
    decodeWord 0xF01E = .ok (.addI 0) ∧ decodeWord 0xF229 = .ok (.fontChar 2) ∧ decodeWord 0xFA33 = .ok (.bcd 10) ∧
    decodeWord 0xF255 = .ok (.storeRegs 2) ∧ decodeWord 0xFF65 = .ok (.loadRegs 15) :=
  ⟨rfl, rfl, rfl, rfl, rfl, rfl, rfl, rfl, rfl⟩

/-- V1 to V4 and S17: the unknown words are rejected by name. -/
theorem test_decode_unknown : decodeWord 0x8008 = .error (.unknown8 0x8008) ∧
    decodeWord 0xE000 = .error (.unknownE 0xE000) ∧ decodeWord 0xF0FF = .error (.unknownF 0xF0FF) ∧
    decodeWord 0x0000 = .error (.unknown0 0x0000) ∧ decodeWord 0x0123 = .error (.unknown0 0x0123) ∧
    decode [0x12] = .error .truncated := ⟨rfl, rfl, rfl, rfl, rfl, rfl⟩

/-- R55, R70: bytes are big-endian, and what follows the word is given back. -/
theorem test_decode_bytes : decode [0x63, 0x0A, 0xFF] = .ok (.setVx 3 0x0A, [0xFF]) ∧
    decodeTableWord 16 0x630A = some (.setVx 3 0x0A) ∧ encodeBytes (.setVx 3 0x0A) = [0x63, 0x0A] := ⟨rfl, rfl, rfl⟩

/-- R83: the lines of the spec's own listings, and the fields the assembler zeroes. -/
theorem test_listing : listing (.setVx 10 0x2C) = "SET_VX VA, 0x2C" ∧ listing (.jump 0x204) = "JUMP 0x204" ∧
    listing (.draw 1 2 5) = "DRAW V1, V2, 0x5" ∧ listing (.ret 5) = "RETURN" ∧
    encode (assembled (.skipEqVy 1 2 3)) = 0x5120 ∧ encode (assembled (.cls 3)) = 0x00E0 := by decide

/-- R84: HALT at 0x20C is the word 0x120C. -/
theorem test_halt : (haltAt 0x20C).map encode = some 0x120C ∧ haltAt 0x1000 = none := by decide

/-! ### WellFormed: each check refuses an ill-formed term (R227, R243) -/

theorem test_key_code_above_F_is_refused : keyCodeWellFormed 0x10 = false ∧ keyCodeWellFormed 0x0F = true := by decide

theorem test_key_sample_is_refused : keySampleWellFormed [0x2, 0x10] = false := by decide

/-- S18: one byte more than 0x200..0xFFF holds. -/
theorem test_long_image_is_refused : imageWellFormed (List.replicate 3585 0) = false ∧
    imageWellFormed (List.replicate 3584 0) = true := by
  constructor <;> (rw [imageWellFormed, List.length_replicate]; rfl)

theorem test_ill_formed_events_are_refused : eventWellFormed (.cycleStrobe [0xFF] 0) = false ∧
    eventWellFormed (.romLoad (List.replicate 3585 0)) = false :=
  ⟨rfl, by rw [eventWellFormed, imageWellFormed, List.length_replicate]; rfl⟩

/-! ### Control flow (section 2.2) -/

/-- V10. -/
theorem test_jump_odd_target : seePc 0x1201 running = some 0x201 := by decide
/-- V13. -/
theorem test_jump_offset_is_not_reduced : seePc 0xBFFF (running.writeV 0 0xFF) = some 0x10FE := by decide
/-- V14. -/
theorem test_call_pushes : (runWord 0x2300 running).map (fun t => (t.stack, t.pc)) = some ([0x202], 0x300) := by decide
/-- V15. -/
theorem test_call_overflow : seeFault 0x2300 { running with stack := List.replicate 16 0x202 } =
    some (some ⟨.stackOverflow, none, some 0x200, some 0x2300, none⟩, 0x202) := by decide
/-- V19. -/
theorem test_return_pops_the_last : (runWord 0x00EE { running with stack := [0x206, 0x30A] }).map
    (fun t => (t.stack, t.pc)) = some ([0x206], 0x30A) := by decide
/-- V17. -/
theorem test_return_underflow : seeFault 0x00EE running =
    some (some ⟨.stackUnderflow, none, some 0x200, some 0x00EE, none⟩, 0x202) := by decide
/-- V20, V21. -/
theorem test_skip_eq_nn : seePc 0x3228 (running.writeV 2 0x28) = some 0x204 ∧
    seePc 0x3228 (running.writeV 2 0x27) = some 0x202 := by decide
/-- V22, V23. -/
theorem test_skip_ne_nn : seePc 0x4228 (running.writeV 2 0x27) = some 0x204 ∧
    seePc 0x4228 (running.writeV 2 0x28) = some 0x202 := by decide
/-- V24, V25. -/
theorem test_skip_eq_vy : seePc 0x5123 (regs2 1 7 2 7) = some 0x204 ∧ seePc 0x5120 (regs2 1 7 2 8) = some 0x202 := by
  decide
/-- V26, V27. -/
theorem test_skip_ne_vy : seePc 0x9120 (regs2 1 7 2 7) = some 0x202 ∧ seePc 0x912F (regs2 1 7 2 8) = some 0x204 := by
  decide

/-! ### Arithmetic and logic (section 2.3) -/

/-- V30. -/
theorem test_set_vx : seeV 0x6A2C running 10 15 = some (0x2C, 0) := by decide
/-- V31. -/
theorem test_add_vx_wraps_without_flag : seeV 0x70FF (regs2 0 1 15 1) 0 15 = some (0, 1) := by decide
/-- V33. -/
theorem test_set : seeV 0x8150 (running.writeV 5 0x11) 1 5 = some (0x11, 0x11) := by decide
/-- V34. -/
theorem test_or : seeV 0x8121 (regs2 1 0x0C 2 0x0A) 1 2 = some (0x0E, 0x0A) := by decide
/-- V35. -/
theorem test_and : seeV 0x8122 (regs2 1 0x0C 2 0x0A) 1 2 = some (0x08, 0x0A) := by decide
/-- V36. -/
theorem test_xor : seeV 0x8123 (regs2 1 0x0C 2 0x0A) 1 2 = some (0x06, 0x0A) := by decide
/-- V38, V39. -/
theorem test_add_carry : seeV 0x8014 (regs2 0 255 1 0) 0 15 = some (0xFF, 0) ∧
    seeV 0x8014 (regs2 0 255 1 1) 0 15 = some (0x00, 1) := by decide
/-- V42. -/
theorem test_add_into_vf : seeV 0x8F14 (regs2 15 1 1 1) 15 1 = some (0, 1) := by decide
/-- S6, V43. -/
theorem test_sub_vx : seeV 0x8015 (regs2 0 3 1 5) 0 15 = some (0xFE, 0) ∧
    seeV 0x8015 (regs2 0 7 1 7) 0 15 = some (0, 1) := by decide
/-- V44. -/
theorem test_sub_vx_into_vf : seeV 0x8F15 (regs2 15 5 1 3) 15 1 = some (1, 3) := by decide
/-- V47. -/
theorem test_shift_right : seeV 0x8016 (regs2 0 2 1 0xFF) 0 15 = some (1, 0) := by decide
/-- V48. -/
theorem test_shift_right_of_vf : seeV 0x8F06 (running.writeV 15 4) 15 0 = some (2, 0) := by decide
/-- V50, V51. -/
theorem test_sub_vy : seeV 0x8017 (regs2 0 3 1 5) 0 15 = some (2, 1) ∧
    seeV 0x8017 (regs2 0 5 1 3) 0 15 = some (0xFE, 0) := by decide
/-- V53. -/
theorem test_sub_vy_into_vf : seeV 0x8F17 (regs2 15 5 1 3) 15 1 = some (0, 3) := by decide
/-- V54. -/
theorem test_shift_left : seeV 0x801E (running.writeV 0 0x81) 0 15 = some (2, 1) := by decide
/-- V56. -/
theorem test_shift_left_of_vf : seeV 0x8F0E (running.writeV 15 0x81) 15 0 = some (2, 0) := by decide
/-- V57. -/
theorem test_rand_masks : seeV 0xC30F { running with rand := 0xB7 } 3 15 = some (7, 0) := by decide

/-! ### Index register and memory (section 2.4) -/

/-- V60. -/
theorem test_set_i : (runWord 0xA123 running).map (fun t => t.iReg) = some 0x123 := by decide
/-- V61. -/
theorem test_add_i_wraps : (runWord 0xF01E (indexed 0xFFFF 0 2 [])).map (fun t => (t.iReg, t.v[15])) =
    some (0x0001, 0) := by decide
/-- V62. -/
theorem test_add_i_past_the_memory : (runWord 0xF01E (indexed 0x0FFF 0 1 [])).map (fun t => (t.iReg, t.fault)) =
    some (0x1000, none) := by decide
/-- V63, for any `FONT_BASE`: the low nibble alone counts. -/
theorem test_font_char : (runWord 0xF029 (running.writeV 0 0x1A)).map (fun t => t.iReg) =
    some (BitVec.ofNat 16 (50 + Config.fontBase.val)) := rfl
/-- V66. -/
theorem test_bcd_one_digit : seeMem 0xF033 (indexed 0x400 0 7 [(0x400, 9), (0x401, 9), (0x402, 9)]) 0x400 =
    some [7, 9, 9] := by decide
/-- V70. -/
theorem test_bcd_fault : seeFault 0xF033 (indexed 0xFFE 0 123 []) =
    some (some ⟨.memoryFault, some 0x1000, some 0x200, some 0xF033, none⟩, 0x202) := by decide
/-- V69: a step with `BCD_MODE = FIXED3`. -/
theorem test_bcd_step_in_fixed3 : (answer (takeEventWith { specParameters with bcdMode := .fixed3 }
      ((indexed 0x400 0 7 [(0x401, 9), (0x402, 9)]).withFetchWord 16 0xF033))).map
    (fun t => [t.mem.readByte 0x400, t.mem.readByte 0x401, t.mem.readByte 0x402]) = some [0, 0, 7] := by decide
/-- V68, V69. -/
theorem test_digits_in_both_modes : digits .variableLength 255 = [2, 5, 5] ∧ digits .fixed3 7 = [0, 0, 7] := by decide
/-- V74. -/
theorem test_store_regs : seeMem 0xF255 ((indexed 0x500 0 1 []).writeV 1 2 |>.writeV 2 3) 0x500 = some [1, 2, 3] := by
  decide
/-- V76. -/
theorem test_store_regs_fault_writes_nothing : seeFault 0xFF55 (indexed 0xFF1 0 5 []) =
    some (some ⟨.memoryFault, some 0x1000, some 0x200, some 0xFF55, none⟩, 0x202) ∧
    seeMem 0xFF55 (indexed 0xFF1 0 5 []) 0xFF1 = some [0, 0, 0] := by decide
/-- V78. -/
theorem test_load_regs : seeV 0xF065 { running.writeV 1 0x44 with iReg := 0x500, mem := [(0x500, 0x33), (0x501, 9)] }
    0 1 = some (0x33, 0x44) := by decide

/-! ### Display (section 2.5) -/

/-- V5. -/
theorem test_cls : (runWord 0x03E0 { running with fb := Vector.replicate 32 (Vector.replicate 64 true) }).map
    (fun t => (t.fb[(31 : Fin 32)][(63 : Fin 64)], t.unknownEvents)) = some (false, []) := by decide
/-- V84: clipped on the right, not wrapped. -/
theorem test_draw_clips : seeRow 0xD011 { regs2 0 62 1 5 with iReg := 0x300, mem := [(0x300, 0xC3)] } 5 =
    some ([62, 63], 0) := by decide
/-- V83, V85: the start wraps; then the same sprite again turns its pixel off, a collision. -/
theorem test_draw_collides : ((runWord 0xD011 { regs2 0 67 1 33 with iReg := 0x300, mem := [(0x300, 0x80)] }).map
      (fun t => (onIn t 1, t.v[15], seeRow 0xD011 { t with pc := 0x200 } 1))) =
    some ([3], 0, some ([], 1)) := by decide

/-! ### Keys and timers (section 2.6) -/

/-- V91, V93. -/
theorem test_skip_key : seePc 0xE59E { running.writeV 5 7 with keys := [7, 7] } = some 0x204 ∧
    seePc 0xE59E { running.writeV 5 0x17 with keys := [7] } = some 0x202 := by decide
/-- V95, V96. -/
theorem test_skip_not_key : seePc 0xE5A1 { running.writeV 5 7 with keys := [7] } = some 0x202 ∧
    seePc 0xE5A1 { running.writeV 5 0x17 with keys := [7] } = some 0x204 := by decide
/-- V97. -/
theorem test_get_key_waits : (runWord 0xF30A running).map (fun t => (t.pc, t.v[3])) = some (0x200, 0) := by decide
/-- V98. -/
theorem test_get_key_takes_the_first : (runWord 0xF30A { running with keys := [0xC, 3] }).map
    (fun t => (t.pc, t.v[3])) = some (0x202, 0x0C) := by decide
/-- V99. -/
theorem test_get_delay : seeV 0xF307 { running with dt := 0x2A } 3 0 = some (0x2A, 0) := by decide
/-- V100. -/
theorem test_set_delay : (runWord 0xF115 (running.writeV 1 5)).map (fun t => (t.dt, t.st)) = some (5, 0) := by decide
/-- V101. -/
theorem test_set_sound : (runWord 0xF118 (running.writeV 1 3)).map (fun t => (t.st, soundActive t)) =
    some (3, true) := by decide
/-- V103, V102. -/
theorem test_tick : (answer (step { running with dt := 1, st := 2, inputs := [.tickStrobe] })).map
      (fun t => (t.dt, t.st, soundActive t)) = some (0, 1, true) ∧
    (answer (step { running with inputs := [.tickStrobe] })).map (fun t => (t.dt, t.st)) = some (0, 0) := by decide
/-- V104: a step with `SOUND_TIMER_DECREMENTS` false. -/
theorem test_tick_without_sound : (answer (takeEventWith { specParameters with soundTimerDecrements := false }
    { running with dt := 4, st := 3, inputs := [.tickStrobe] })).map (fun t => (t.dt, t.st)) = some (3, 3) := by decide

/-! ### Fetch, ports and lifecycle (sections 2.1 and 2.7) -/

/-- V6: a fetch at an odd address. -/
theorem test_fetch_odd : seeV 0x6042 { running with pc := 0x201 } 0 15 = some (0x42, 0) := by decide
/-- V7. -/
theorem test_fetch_fault : (answer (step { running with pc := 0xFFF, inputs := [.cycleStrobe [] 0] })).map
    (fun t => (t.fault, t.pc, (statusOut t).code)) =
    some (some ⟨.memoryFault, some 0x1000, some 0xFFF, none, none⟩, 0xFFF, 1) := by decide
/-- S17: an unknown word is reported and skipped. -/
theorem test_unknown_word : (runWord 0x0123 running).map (fun t => (t.pc, unknownEventOut t)) =
    some (0x202, [⟨0x0123, 0x200⟩]) := by decide
/-- V106. -/
theorem test_no_tick_when_halted : (answer (step { running with
    runState := .haltedFault, dt := 4, inputs := [.tickStrobe] })).map (fun t => t.dt) = some 4 := by decide
/-- S18: an image that fits is copied to 0x200 on. -/
theorem test_load : (answer (step { State.reset with inputs := [.romLoad [0xAF, 0xFE]] })).map
    (fun t => (t.mem, t.runState)) = some ([(0x200, 0xAF), (0x201, 0xFE)], .ready) := by decide
/-- S18: one that does not is not. -/
theorem test_load_too_large : (answer (onRomLoad (List.replicate 3585 0) State.reset)).map
    (fun t => (t.runState, t.mem, t.fault.map (fun r => (r.kind, r.length)))) =
    some (.haltedFault, [], some (.romTooLarge, some 3585)) := by
  have h : loadImage (List.replicate 3585 0) State.reset = State.reset.raiseRomTooLarge 3585 := by
    rw [loadImage, List.length_replicate]
    rfl
  rw [onRomLoad, if_pos (by rfl), h]
  rfl
/-- V114. -/
theorem test_reset_after_a_fault : step { running with
    runState := .haltedFault, v := Vector.replicate 16 7, mem := [(0x200, 1)], inputs := [.reset] } =
    .next State.reset := rfl
/-- R60: another font is a parameter of the state after reset; at `FONT_BASE` stands its first byte. -/
theorem test_other_font : resetByteWith (Vector.replicate 80 0x3C) 0x050 0x050 = 0x3C ∧
    resetByteWith (Vector.replicate 80 0x3C) 0x050 0x09F = 0x3C ∧
    resetByteWith (Vector.replicate 80 0x3C) 0x050 0x0A0 = 0 ∧ resetByteWith defaultFont 0x050 0x082 = 0xF0 := by decide
/-- V110, V111: 17 cycles before tick 1, 50 before tick 3. -/
theorem test_schedule : (schedule 1000 18 0 1).filter (fun a => a == .engine) = List.replicate 17 .engine ∧
    (schedule 1000 18 0 1).getLast? = some .timer ∧ schedule 1000 1 50 3 = [.timer] ∧
    schedule 1000 1 49 3 = [.engine] := by decide

/-! ### Witnesses: states and operands that meet the hypotheses of the statements -/

/-- RUNNING at an address, with one event queued. -/
def strobed (pc : Word) (m : Memory) (codes : List Byte) : State :=
  { running with pc := pc, mem := m, inputs := [.cycleStrobe codes 0x5A] }

theorem witness_EncodeOfDecodeGivesTheWord : decodeWord 0x0FE0 = .ok (.cls 15) := rfl

theorem witness_EveryWordHasItsOneTableRowOrNone :
    decodeWord 0x5FFF = .ok (.skipEqVy 15 15 15) ∧ rowSelects (rowOf (.skipEqVy 0 0 0)) 0x5FFF = true ∧
    decodeWord 0x800F = .error (.unknown8 0x800F) := ⟨rfl, rfl, rfl⟩

theorem witness_AccessInsideReadsAndWritesOneByte :
    Memory.wf [(0x300, 5), (0xFFF, 6)] = true ∧ (0xFFF ≤ 0xFFF) ∧ (0xFFF < 0x1000) := by decide

theorem witness_CanonicalMemoriesThatReadAlikeAreEqual :
    Memory.wf [(0x300, 5)] = true ∧
    ∀ a, Memory.readByte [(0x300, 5)] a = Memory.readByte (Memory.writeByte [] 0x300 5) a := ⟨by decide, fun _ => rfl⟩

theorem witness_FetchReadsTwoBytesOrFaultsBeforeTheAdvance :
    ((strobed 0xFFE [] []).pc.toNat + 1 ≤ 0xFFF) ∧
    ((strobed 0xFFF [] []).pc.toNat = 0xFFF ∧ (strobed 0xFFF [] []).runState = .running ∧
      (strobed 0xFFF [] []).inputs = .cycleStrobe [] 0x5A :: []) ∧
    0xFFF < (strobed 0x1000 [] []).pc.toNat := by decide

/-- At the last address a word fits, with a code above 0xF that no instruction reads, and with a key instruction. -/
theorem witness_StepRunsTheDecodedInstruction :
    ((strobed 0xFFE [(0xFFE, 0x60), (0xFFF, 0x42)] [0x1F]).pc.toNat + 1 ≤ 0xFFF ∧
      decode [(strobed 0xFFE [(0xFFE, 0x60), (0xFFF, 0x42)] [0x1F]).mem.readByte 0xFFE,
        (strobed 0xFFE [(0xFFE, 0x60), (0xFFF, 0x42)] [0x1F]).mem.readByte 0xFFF] = .ok (.setVx 0 0x42, []) ∧
      isKeyInstr (.setVx 0 0x42) = false) ∧
    (decode [(strobed 0x200 [(0x200, 0xE5), (0x201, 0x9E)] [0xF]).mem.readByte 0x200,
        (strobed 0x200 [(0x200, 0xE5), (0x201, 0x9E)] [0xF]).mem.readByte 0x201] = .ok (.skipKey 5, []) ∧
      ∀ c ∈ ([0xF] : List Byte), c.toNat ≤ 0xF) := ⟨⟨by decide, rfl, rfl⟩, rfl, by decide⟩

theorem witness_UnknownWordIsReportedAndSkipped :
    (strobed 0xFFE [] []).runState = .running ∧ (strobed 0xFFE [] []).pc.toNat + 1 ≤ 0xFFF ∧
    decodeWord (wordAt (strobed 0xFFE [] []).mem (strobed 0xFFE [] []).pc.toNat) = .error (.unknown0 0) :=
  ⟨rfl, by decide, rfl⟩

theorem witness_HostOutsideItsContractIsRefused :
    (decodeWord (wordAt (strobed 0x200 [(0x200, 0xF3), (0x201, 0x0A)] [0x10]).mem 0x200) = .ok (.getKey 3) ∧
      isKeyInstr (.getKey 3) = true ∧ ∃ c ∈ ([0x10] : List Byte), 0xF < c.toNat) ∧
    (State.runState { running with inputs := [.romLoad []] } ≠ .ready) := ⟨⟨rfl, rfl, by decide⟩, by decide⟩

theorem witness_NoQueuedEventMeansACycleATickOrAStop : State.reset.inputs = [] := rfl

theorem witness_PlacedWordIsTheNextInstruction :
    State.reset.mem.wf = true ∧ State.reset.pc.toNat + 1 ≤ 0xFFF ∧ (strobed 0xFFE [] []).pc.toNat + 1 ≤ 0xFFF ∧
    decodeTableWord 16 0x6A2C = some (.setVx 10 0x2C) := ⟨rfl, by decide, by decide, rfl⟩

theorem witness_ResetGivesEveryPieceItsResetValue :
    (∃ s : State, s.runState = .haltedFault ∧ s.inputs = .reset :: []) ∧
    (∃ s : State, s.runState = .stopped ∧ s.inputs = .reset :: []) ∧ 79 < 80 ∧
    (0xFFF ≤ 0xFFF ∧ Config.fontBase.val + 80 ≤ 0xFFF) :=
  ⟨⟨{ running with runState := .haltedFault, inputs := [.reset] }, rfl, rfl⟩,
    ⟨{ running with runState := .stopped, inputs := [.reset] }, rfl, rfl⟩, by decide, by decide,
    by have := Config.fontBase.isLt; omega⟩

theorem witness_StrobesDoNothingUnlessRunning :
    (State.runState { State.reset with inputs := [.tickStrobe] } ≠ .running) ∧
    (State.runState { strobed 0x200 [] [] with runState := .stopped } ≠ .running) ∧
    State.inputs { strobed 0x200 [] [] with runState := .stopped } = .cycleStrobe [] 0x5A :: [] := by decide

theorem witness_HaltedVmIsLeftOnlyByReset : ∃ s t : State, s.runState = .haltedFault ∧
    s.inputs.head? ≠ some .reset ∧ step s = .next t :=
  ⟨{ running with runState := .haltedFault, inputs := [.start] }, _, rfl, by decide, rfl⟩

theorem witness_StopTakesEffectAndHoldsUntilReset :
    (∃ s : State, s.runState = .running ∧ s.inputs = .stop :: []) ∧
    (∃ s t : State, s.runState = .stopped ∧ s.inputs.head? ≠ some .reset ∧ step s = .next t) :=
  ⟨⟨{ running with inputs := [.stop] }, rfl, rfl⟩,
    ⟨{ running with runState := .stopped, inputs := [.start] }, _, rfl, by decide, rfl⟩⟩

theorem witness_StartRunsFromTheResetVector : ∃ s : State, s.runState = .ready ∧ s.inputs = .start :: [] :=
  ⟨{ State.reset with inputs := [.start] }, rfl, rfl⟩

theorem witness_LoadCopiesTheImageOrWritesNothing :
    (∃ s : State, s.runState = .ready ∧ s.mem.wf = true ∧ s.inputs = .romLoad (List.replicate 3584 0xFF) :: []) ∧
    (∃ s : State, s.runState = .ready ∧ s.mem.wf = true ∧ s.inputs = .romLoad (List.replicate 3585 0xFF) :: []) ∧
    (List.replicate 3584 (0xFF : Byte)).length ≤ 3584 ∧ 3584 < (List.replicate 3585 (0xFF : Byte)).length :=
  ⟨⟨{ State.reset with inputs := [.romLoad (List.replicate 3584 0xFF)] }, rfl, rfl, rfl⟩,
    ⟨{ State.reset with inputs := [.romLoad (List.replicate 3585 0xFF)] }, rfl, rfl, rfl⟩,
    by rw [List.length_replicate], by rw [List.length_replicate]; decide⟩

theorem witness_EmptyImageRunsOffTheEndOfMemory :
    (List.replicate 1793 (HostEvent.cycleStrobe [] 0)).length = 1793 ∧
    ∀ e ∈ List.replicate 1793 (HostEvent.cycleStrobe [] 0), ∃ codes r, e = .cycleStrobe codes r :=
  ⟨List.length_replicate, fun _ h => ⟨[], 0, List.eq_of_mem_replicate h⟩⟩

/-- V11: the word 0x1200 at 0x200. -/
theorem witness_HaltIdiomChangesNothing : (strobed 0x200 [(0x200, 0x12)] []).runState = .running ∧
    (strobed 0x200 [(0x200, 0x12)] []).atHalt ∧ State.atHalt { running with
      mem := [(0x200, 0x12)], inputs := [.tickStrobe] } := ⟨rfl, ⟨0x200, rfl, rfl⟩, ⟨0x200, rfl, rfl⟩⟩

theorem witness_TimerTickCountsBothTimersDown :
    (∃ s : State, s.runState = .running ∧ s.inputs = .tickStrobe :: []) ∧
    (∃ s : State, s.runState ≠ .running ∧ s.inputs = .tickStrobe :: []) :=
  ⟨⟨{ running with inputs := [.tickStrobe] }, rfl, rfl⟩,
    ⟨{ State.reset with inputs := [.tickStrobe] }, by decide, rfl⟩⟩

theorem witness_TicksCountDelayDownToZeroAndNoFurther :
    ∃ s : State, s.runState = .running ∧ s.dt = 5 ∧ s.inputs = List.replicate 7 .tickStrobe ++ [.stop] :=
  ⟨{ running with dt := 5, inputs := List.replicate 7 .tickStrobe ++ [.stop] }, rfl, rfl, rfl⟩

/-- The mask premises of the decoding clauses, one word for each row of the opcode table, every operand bit set. The
statements about the jumps, the four register skips, the immediate forms, copy and logic, ADD, the subtractions, the
shifts, the index instructions, CLS and the timer instructions have no other hypothesis. -/
theorem witness_decoding_clauses :
    (0x1FFF : Word) &&& 0xF000 = 0x1000 ∧ (0x2FFF : Word) &&& 0xF000 = 0x2000 ∧
    (0x3FFF : Word) &&& 0xF000 = 0x3000 ∧ (0x4FFF : Word) &&& 0xF000 = 0x4000 ∧
    (0x5FFF : Word) &&& 0xF000 = 0x5000 ∧ (0x6FFF : Word) &&& 0xF000 = 0x6000 ∧
    (0x7FFF : Word) &&& 0xF000 = 0x7000 ∧ (0x9FFF : Word) &&& 0xF000 = 0x9000 ∧
    (0xAFFF : Word) &&& 0xF000 = 0xA000 ∧ (0xBFFF : Word) &&& 0xF000 = 0xB000 ∧
    (0xCFFF : Word) &&& 0xF000 = 0xC000 ∧ (0xDFFF : Word) &&& 0xF000 = 0xD000 := by decide

theorem witness_decoding_clauses_family_8 :
    (0x8FF0 : Word) &&& 0xF00F = 0x8000 ∧ (0x8FF1 : Word) &&& 0xF00F = 0x8001 ∧
    (0x8FF2 : Word) &&& 0xF00F = 0x8002 ∧ (0x8FF3 : Word) &&& 0xF00F = 0x8003 ∧
    (0x8FF4 : Word) &&& 0xF00F = 0x8004 ∧ (0x8FF5 : Word) &&& 0xF00F = 0x8005 ∧
    (0x8FF6 : Word) &&& 0xF00F = 0x8006 ∧ (0x8FF7 : Word) &&& 0xF00F = 0x8007 ∧
    (0x8FFE : Word) &&& 0xF00F = 0x800E := by decide

theorem witness_decoding_clauses_families_0_E_F :
    (0x0FE0 : Word) &&& 0xF0FF = 0x00E0 ∧ (0x0FEE : Word) &&& 0xF0FF = 0x00EE ∧
    (0xEF9E : Word) &&& 0xF0FF = 0xE09E ∧ (0xEFA1 : Word) &&& 0xF0FF = 0xE0A1 ∧
    (0xFF07 : Word) &&& 0xF0FF = 0xF007 ∧ (0xFF0A : Word) &&& 0xF0FF = 0xF00A ∧
    (0xFF15 : Word) &&& 0xF0FF = 0xF015 ∧ (0xFF18 : Word) &&& 0xF0FF = 0xF018 ∧
    (0xFF1E : Word) &&& 0xF0FF = 0xF01E ∧ (0xFF29 : Word) &&& 0xF0FF = 0xF029 ∧
    (0xFF33 : Word) &&& 0xF0FF = 0xF033 ∧ (0xFF55 : Word) &&& 0xF0FF = 0xF055 ∧
    (0xFF65 : Word) &&& 0xF0FF = 0xF065 := by decide

theorem witness_CallPushesTheReturnAddressOrOverflows :
    (List.replicate 15 (0x202 : Word)).length ≠ 16 ∧ (List.replicate 16 (0x202 : Word)).length = 16 := by decide

theorem witness_ReturnPopsTheLastCallOrUnderflows :
    State.stack { running with stack := [0x206, 0x30A] } = [0x206] ++ [0x30A] ∧ running.stack = [] := ⟨rfl, rfl⟩

theorem witness_RandMasksTheSampledByte : State.rand { running with rand := 0xFF } = 0xFF := rfl

theorem witness_DigitsAreTheDecimalDigits : (0 : Byte) = 0 ∧ (255 : Byte) ≠ 0 := by decide

/-- V71 fits exactly, V70 and V73 do not. -/
theorem witness_BcdStoresTheDigitsAtI :
    (indexed 0xFFE 0 45 []).mem.wf = true ∧
    (indexed 0xFFE 0 45 []).iReg.toNat + (digits .variableLength (indexed 0xFFE 0 45 []).v[0]).length ≤ 0x1000 ∧
    0x1000 < (indexed 0xFFE 0 123 []).iReg.toNat + (digits .variableLength (indexed 0xFFE 0 123 []).v[0]).length ∧
    0x1000 < (indexed 0x1000 0 0 []).iReg.toNat + (digits .variableLength (indexed 0x1000 0 0 []).v[0]).length := by
  decide

/-- V75 fits exactly, V76 does not; the same for LOAD_REGS. -/
theorem witness_StoreAndLoadRegs :
    (indexed 0xFF0 0 1 []).mem.wf = true ∧ (indexed 0xFF0 0 1 []).iReg.toNat + (15 : RegIdx).val ≤ 0xFFF ∧
    0xFFF < (indexed 0xFF1 0 1 []).iReg.toNat + (15 : RegIdx).val := by decide

/-- No row at any `I`; one row at the last address; V87. -/
theorem witness_DrawXorsTheSpriteClippedAndReportsCollision :
    (0 : RowCount).val = 0 ∧ (indexed 0xFFF 0 0 []).iReg.toNat + (1 : RowCount).val - 1 ≤ 0xFFF ∧
    (1 ≤ (2 : RowCount).val ∧ 0xFFF < (indexed 0xFFF 0 0 []).iReg.toNat + (2 : RowCount).val - 1) := by decide

theorem witness_DrawingTwiceRestoresThePixels :
    (0 : RegIdx) ≠ 15 ∧ (1 : RegIdx) ≠ 15 ∧ (indexed 0xFF1 0 0 []).iReg.toNat + (15 : RowCount).val ≤ 0x1000 := by
  decide

theorem witness_KeySkipsTestMembershipOnce :
    (∃ k ∈ State.keys { running with keys := [2, 0] }, k.toNat = running.v[(0 : RegIdx)].toNat) ∧
    (∀ k ∈ State.keys { running with keys := [2, 7] }, k.toNat ≠ running.v[(0 : RegIdx)].toNat) := by decide

theorem witness_GetKeyLoadsTheFirstKeyOrRewinds :
    State.keys { running with keys := [0xF, 3] } = 0xF :: [3] ∧ running.keys = [] := ⟨rfl, rfl⟩

theorem witness_PcAfterEachInstruction :
    (∃ t, running.pc = 0x1FE + 2 ∧ running.runState = .running ∧ exec (.getKey 3) running = .next t ∧
      t.runState = .running) ∧
    (∃ t, decodeWord 0x0123 = .error (.unknown0 0x0123) ∧ executeWord 0x0123 running = .next t) :=
  ⟨⟨_, rfl, rfl, rfl, rfl⟩, ⟨_, rfl, rfl⟩⟩

theorem witness_RegistersChangeOnlyWhereTheTableSays :
    ∃ t, exec (.loadRegs 14) (indexed 0x300 15 7 []) = .next t ∧ mayWriteV (.loadRegs 14) 15 = false := ⟨_, rfl, rfl⟩

theorem witness_FlagWritersLeaveZeroOrOneInVf :
    (∃ t, exec (.addReg 15 1) running = .next t ∧ running.runState = .running ∧ t.runState = .running) ∧
    (∃ t, exec (.shiftLeft 14 0) running = .next t ∧ (14 : RegIdx) ≠ 15 ∧ t.runState = .running) ∧
    (∃ t, exec (.draw 15 1 0) running = .next t ∧ t.runState = .running) :=
  ⟨⟨_, rfl, rfl, rfl⟩, ⟨_, rfl, by decide, rfl⟩, ⟨_, rfl, rfl⟩⟩

/-- Outside the one stored byte: the address after it. -/
theorem witness_MemoryChangesOnlyWhereTheInstructionStores :
    ∃ t, (indexed 0x400 0 7 []).mem.wf = true ∧ exec (.bcd 0) (indexed 0x400 0 7 []) = .next t ∧
      ∀ k, k < storeCount (.bcd 0) (indexed 0x400 0 7 []) → 0x401 ≠ effectiveAddress (indexed 0x400 0 7 []) k :=
  ⟨_, rfl, rfl, by decide⟩

theorem witness_FramebufferChangesOnlyByClsAndDraw :
    (∃ t, exec (.bcd 0) running = .next t ∧ (∀ x, Instr.bcd 0 ≠ .cls x) ∧ ∀ x y n, Instr.bcd 0 ≠ .draw x y n) ∧
    (∃ t, decodeWord 0xFFFF = .error (.unknownF 0xFFFF) ∧ executeWord 0xFFFF running = .next t) :=
  ⟨⟨_, rfl, nofun, nofun⟩, ⟨_, rfl, rfl⟩⟩

theorem witness_SpecialStateChangesOnlyByItsInstructions :
    ∃ t, exec (.setVx 0 1) running = .next t ∧ (∀ n, Instr.setVx 0 1 ≠ .setI n) ∧ (∀ x, Instr.setVx 0 1 ≠ .addI x) ∧
      (∀ x, Instr.setVx 0 1 ≠ .fontChar x) ∧ (∀ x, Instr.setVx 0 1 ≠ .setDelay x) ∧
      (∀ x, Instr.setVx 0 1 ≠ .setSound x) ∧ (∀ n, Instr.setVx 0 1 ≠ .call n) ∧ (∀ x, Instr.setVx 0 1 ≠ .ret x) ∧
      raisedBy (.setVx 0 1) running = none := ⟨_, rfl, nofun, nofun, nofun, nofun, nofun, nofun, nofun, rfl⟩

theorem witness_WhichInstructionsRaiseWhichError :
    (∃ t, exec (.ret 0) running = .next t ∧ raisedBy (.ret 0) running = some .stackUnderflow) ∧
    (∃ t, exec (.call 0) running = .next t ∧ raisedBy (.call 0) running = none) ∧
    (strobed 0xFFE [] []).pc.toNat ≤ 0xFFE ∧ 0xFFE < (strobed 0xFFF [] []).pc.toNat ∧
    decodeWord 0x0000 = .error (.unknown0 0) := ⟨⟨_, rfl, rfl⟩, ⟨_, rfl, rfl⟩, by decide, by decide, rfl⟩

/-- A cycle that halts on a RETURN with an empty stack, and one that halts in its fetch. -/
theorem witness_FatalErrorsArePrecise :
    (∃ t, (strobed 0x200 [(0x201, 0xEE)] []).runState = .running ∧
      step (strobed 0x200 [(0x201, 0xEE)] []) = .next t ∧ t.runState = .haltedFault) ∧
    (∃ t, (strobed 0xFFF [] []).runState = .running ∧ step (strobed 0xFFF [] []) = .next t ∧
      t.runState = .haltedFault) := ⟨⟨_, rfl, rfl, rfl⟩, ⟨_, rfl, rfl, rfl⟩⟩

theorem witness_PortsAreReadOnlyByTheirInstructions :
    (∃ t, exec (.rand 0 1) running = .next t ∧ isKeyInstr (.rand 0 1) = false) ∧
    (∃ t, exec (.getKey 0) running = .next t ∧ isRand (.getKey 0) = false) := ⟨⟨_, rfl, rfl⟩, ⟨_, rfl, rfl⟩⟩

/-- A state that satisfies all four invariants and steps, with an event, a stack entry and memory to keep. -/
def soundState : State :=
  { strobed 0x200 [(0x200, 0x61), (0x201, 0x02)] [] with stack := [0x1000], unknownEvents := [⟨0x0123, 0x200⟩] }

theorem witness_StepKeepsMemoryCanonical : soundState.memoryCanonical ∧ ∃ t, step soundState = .next t :=
  ⟨rfl, _, rfl⟩

theorem witness_StepKeepsPcAndStackBounded : soundState.addressesBounded ∧ ∃ t, step soundState = .next t :=
  ⟨⟨by decide, by decide, fun e h => by rw [List.mem_singleton.1 h]; decide⟩, _, rfl⟩

theorem witness_StepKeepsFaultRecordedExactlyWhenHalted : soundState.faultRecorded ∧ ∃ t, step soundState = .next t :=
  ⟨⟨nofun, nofun⟩, _, rfl⟩

theorem witness_StepKeepsReportedWordsUnknown : soundState.eventsUnknown ∧ ∃ t, step soundState = .next t :=
  ⟨fun e h => by rw [List.mem_singleton.1 h]; exact ⟨_, rfl⟩, _, rfl⟩

end Sys2Proof.Tests
end

namespace Sys2Proof.Machine

/-! ### `pc` under the shared operations -/

@[simp] theorem State.raiseExecute_pc (s : State) (kind : FaultKind) (addr : Option Nat) (i : Instr) :
    (s.raiseExecute kind addr i).pc = s.pc := rfl

@[simp] theorem State.raiseExecute_runState (s : State) (kind : FaultKind) (addr : Option Nat) (i : Instr) :
    (s.raiseExecute kind addr i).runState = .haltedFault := rfl

/-- A store at `I` leaves `pc` alone, whether it fits or faults. -/
@[simp] theorem storeAtI_pc (s : State) (bytes : List Byte) (i : Instr) : (storeAtI s bytes i).pc = s.pc := by
  rw [storeAtI]
  split <;> rfl

/-- A skip counted from the fetch address `a`: the instruction cycle has already advanced to `a + 2` (R92, R100). -/
theorem State.skipIf_pc_of_advanced {s : State} {a : Word} (hpc : s.pc = a + 2) (c : Bool) :
    (s.skipIf c).pc = if c then a + 4 else a + 2 := by
  have htwice : a + 2 + 2 = a + 4 := BitVec.add_assoc a 2 2
  rw [State.skipIf_eq, State.setPc_pc, hpc, htwice]

/-- The key test as membership of the whole register byte in the sample's codes (R185). -/
theorem keyPressed_eq_decide_mem (s : State) (code : Byte) :
    keyPressed s code = decide (code ∈ s.keys.map (fun k => k.setWidth 8)) := by
  rw [Bool.eq_iff_iff, keyPressed_iff, decide_eq_true_iff, List.mem_map]

/-! ### `pc` after an instruction -/

/-- Does the instruction have a row of its own in the `pc` table of R25: a target, a skip or the rewind? -/
def hasPcRow (i : Instr) : Bool :=
  match i with
  | .jump _ | .call _ | .ret _ | .jumpOffset _ | .getKey _ => true
  | .skipEqNn _ _ | .skipNeNn _ _ | .skipEqVy _ _ _ | .skipNeVy _ _ _ | .skipKey _ | .skipNotKey _ => true
  | _ => false

/-- Every instruction without a row of its own leaves `pc` where the advance put it, even when it faults (R25). -/
theorem exec_keeps_pc {i : Instr} {s t : State} (hi : hasPcRow i = false) (h : exec i s = .next t) :
    t.pc = s.pc := by
  cases i with
  | jump | call | ret | jumpOffset | getKey => cases hi
  | skipEqNn | skipNeNn | skipEqVy | skipNeVy | skipKey | skipNotKey => cases hi
  | bcd | storeRegs => cases h; exact storeAtI_pc _ _ _
  | draw | loadRegs => cases h; split <;> rfl
  | _ => cases h; rfl

/-- A CALL that does not overflow the stack goes to its target (R103). -/
theorem exec_call_pc {nnn : Addr12} {s t : State} (h : exec (.call nnn) s = .next t) (hrun : t.runState = .running) :
    t.pc = nnn.setWidth 16 := by
  cases h
  split at hrun
  · cases hrun
  · next hroom => rw [if_neg hroom]; rfl

/-- A RETURN that does not underflow the stack goes to the popped entry (R104). -/
theorem exec_ret_pc {x : Nibble} {s t : State} (h : exec (.ret x) s = .next t) (hrun : t.runState = .running) :
    t.pc = (s.stack.getLast?).getD 0 := by
  cases h
  rw [State.top_eq] at hrun ⊢
  cases htop : s.stack.getLast? with
  | none => rw [htop] at hrun; cases hrun
  | some entry => rfl

/-- GET_KEY fetched at `a`: back to `a` with no key, else the advance alone (R187). -/
theorem exec_getKey_pc {x : RegIdx} {a : Word} {s t : State} (hpc : s.pc = a + 2)
    (h : exec (.getKey x) s = .next t) : t.pc = if s.keys = [] then a else a + 2 := by
  cases h
  cases s.keys with
  | nil => simp [hpc]
  | cons k ks => simp [hpc]

/-- Settles O47: the faults of CALL and RETURN are excluded by the VM going on, the skips add 2 to the advance, and
every instruction outside the table keeps the advanced `pc`. -/
theorem pcAfterEachInstruction : Obligations.PcAfterEachInstruction := by
  refine ⟨fun i a s t hpc _ h hrun => ?_, fun w e s t hw h => ?_⟩
  · have hskip := State.skipIf_pc_of_advanced hpc
    cases i with
    | jump | jumpOffset => cases h; rfl
    | call => exact exec_call_pc h hrun
    | ret => exact exec_ret_pc h hrun
    | skipEqNn | skipNeNn | skipEqVy | skipNeVy => cases h; simp [hskip]
    | skipKey | skipNotKey => cases h; simp [hskip, keyPressed_eq_decide_mem, -List.mem_map]
    | getKey => exact exec_getKey_pc hpc h
    | _ => exact (exec_keeps_pc rfl h).trans hpc
  · rw [executeWord, executeWordBy, hw] at h
    cases h
    rfl

end Sys2Proof.Machine

namespace Sys2Proof

/-! ### The decoded fields as shifts and masks (R71) -/

/-- Extracting `len` bits from bit `start` on is a shift and a mask of `len` ones. -/
theorem setWidth_extractLsb'_eq_shift_mask (w : Word) (start len : Nat) (hlen : len ≤ 16) :
    (w.extractLsb' start len).setWidth 16 = (w >>> start) &&& BitVec.ofNat 16 (2 ^ len - 1) := by
  have hpow : 2 ^ len ≤ 2 ^ 16 := Nat.pow_le_pow_right (by decide) hlen
  have hpos : 0 < 2 ^ len := Nat.two_pow_pos len
  have hmask : 2 ^ len - 1 < 2 ^ 16 := by omega
  have hfield : w.toNat >>> start % 2 ^ len < 2 ^ 16 := (Nat.mod_lt _ hpos).trans_le hpow
  apply BitVec.eq_of_toNat_eq
  rw [BitVec.toNat_setWidth, BitVec.extractLsb'_toNat, BitVec.toNat_and, BitVec.toNat_ushiftRight,
    BitVec.toNat_ofNat, Nat.mod_eq_of_lt hfield, Nat.mod_eq_of_lt hmask, Nat.and_two_pow_sub_one_eq_mod]

/-- NNN is X above NN. -/
theorem fields_nnn_eq_x_append_nn (w : Word) : (fields w).nnn = (fields w).x ++ (fields w).nn := by
  rw [fields_nnn, fields_nn, BitVec.append_assoc, BitVec.cast_eq]

theorem fields_nn_eq_y_shift_or_n (w : Word) :
    (fields w).nn = ((fields w).y.setWidth 8 <<< 4) ||| (fields w).n.setWidth 8 := by
  rw [← BitVec.setWidth_append_eq_shiftLeft_setWidth_or, BitVec.setWidth_eq, fields_nn]

theorem fields_nnn_eq_x_shift_or_nn (w : Word) :
    (fields w).nnn = ((fields w).x.setWidth 12 <<< 8) ||| (fields w).nn.setWidth 12 := by
  rw [← BitVec.setWidth_append_eq_shiftLeft_setWidth_or, BitVec.setWidth_eq, fields_nnn_eq_x_append_nn]

/-- Settles O5: each field is an extraction, so a shift and a mask; the overlaps are the fields' concatenations. -/
theorem fieldsAreTheShiftedAndMaskedWord : Obligations.FieldsAreTheShiftedAndMaskedWord := by
  intro w
  have hmask := setWidth_extractLsb'_eq_shift_mask w
  exact ⟨hmask 12 4 (by decide), hmask 8 4 (by decide), hmask 4 4 (by decide), hmask 0 4 (by decide),
    hmask 0 8 (by decide), hmask 0 12 (by decide), fields_nn_eq_y_shift_or_n w, fields_nnn_eq_x_shift_or_nn w⟩

end Sys2Proof

namespace Sys2Proof.Machine

/-! ### The cycle of a strobe, by what the fetch answers -/

/-- The fetched word as a shift and an or: the byte at the lower address is the high one (R55, R91). -/
theorem wordOfBytes_eq_shift_or (hi lo : Byte) :
    wordOfBytes hi lo = (hi.setWidth 16 <<< 8) ||| lo.setWidth 16 := by
  rw [← BitVec.setWidth_append_eq_shiftLeft_setWidth_or, BitVec.setWidth_eq, wordOfBytes]

/-- A cycle whose fetch faults samples no keys (R222). -/
theorem samplesKeys_of_fetch_error {s : State} {a : Nat} (hf : fetch s = .error a) : samplesKeys s = false := by
  rw [samplesKeys, hf]

/-- A cycle that fetches an unknown word samples no keys (R222). -/
theorem samplesKeys_of_unknown {s : State} {w : Word} {e : DecodeError} (hf : fetch s = .ok w)
    (hw : decodeWord w = .error e) : samplesKeys s = false := by
  rw [samplesKeys, hf]
  simp only [hw]

theorem instructionCycle_of_fetch_error {s : State} {a : Nat} (hf : fetch s = .error a) :
    instructionCycle s = .next (s.raiseFetch a) := by
  rw [instructionCycle, instructionCycleBy, hf]

theorem instructionCycle_of_unknown {s : State} {w : Word} {e : DecodeError} (hf : fetch s = .ok w)
    (hw : decodeWord w = .error e) : instructionCycle s = .next (s.advance.reportUnknown w s.pc) := by
  rw [instructionCycle, instructionCycleBy, hf]
  simp only [executeWordBy, hw]

/-- A strobe of a RUNNING VM is an instruction cycle, unless it samples keys outside the contract (R96, R227). -/
theorem step_cycleStrobe {s : State} {codes : List Byte} {r : Byte} {rest : List HostEvent}
    (hrun : s.runState = .running) (hin : s.inputs = .cycleStrobe codes r :: rest)
    (hkeys : keySampleWellFormed codes = true ∨ samplesKeys s = false) :
    step s = instructionCycle { s with keys := keyCodes codes, rand := r, inputs := rest } := by
  have hhandle : step s = onCycleStrobe exec codes r { s with inputs := rest } := step_cons s _ rest hin
  have hsample : samplesKeys { s with inputs := rest } = samplesKeys s := rfl
  have hlegal : (keySampleWellFormed codes || !samplesKeys s) = true := by
    rcases hkeys with h | h <;> simp [h]
  rw [hhandle, onCycleStrobe, if_pos hrun, hsample, if_pos hlegal]
  rfl

/-- Settles O9: `fetch_ok` gives the two bytes; a fetch fault reads no key sample, and is taken before the advance. -/
theorem fetchReadsTwoBytesOrFaultsBeforeTheAdvance : Obligations.FetchReadsTwoBytesOrFaultsBeforeTheAdvance := by
  refine ⟨fun s hpc => ?_, fun s codes r rest bad hrun hin hbad => ?_⟩
  · rw [fetch_ok s hpc, wordOfBytes_eq_shift_or]
  · have hmax : max s.pc.toNat 0x1000 = bad := by omega
    have hf : fetch s = .error bad := hmax ▸ fetch_error s (by omega)
    rw [step_cycleStrobe hrun hin (.inr (samplesKeys_of_fetch_error hf))]
    exact instructionCycle_of_fetch_error hf

/-- Settles O11: the word that `fetch_ok` reads is unknown, so the cycle samples no keys, advances and reports. -/
theorem unknownWordIsReportedAndSkipped : Obligations.UnknownWordIsReportedAndSkipped := by
  intro s codes r rest e hrun hin hpc hw
  have hf : fetch s = .ok (wordAt s.mem s.pc.toNat) := fetch_ok s hpc
  rw [step_cycleStrobe hrun hin (.inr (samplesKeys_of_unknown hf hw))]
  exact instructionCycle_of_unknown hf hw

end Sys2Proof.Machine

namespace Sys2Proof

/-! ### The words of control transfer decode to their instructions (R75, R76) -/

theorem decodeWord_jump {w : Word} (h : w &&& 0xF000 = 0x1000) : decodeWord w = .ok (.jump (fields w).nnn) := by
  rw [decodeWord, fields_op_of_and_F000 w _ h]
  rfl

theorem decodeWord_jumpOffset {w : Word} (h : w &&& 0xF000 = 0xB000) :
    decodeWord w = .ok (.jumpOffset (fields w).nnn) := by
  rw [decodeWord, fields_op_of_and_F000 w _ h]
  rfl

theorem decodeWord_call {w : Word} (h : w &&& 0xF000 = 0x2000) : decodeWord w = .ok (.call (fields w).nnn) := by
  rw [decodeWord, fields_op_of_and_F000 w _ h]
  rfl

/-- Family 0x0 looks at NN alone, so X is whatever the word holds (R76). -/
theorem decodeWord_ret {w : Word} (h : w &&& 0xF0FF = 0x00EE) : decodeWord w = .ok (.ret (fields w).x) := by
  obtain ⟨hop, hnn⟩ := fields_op_nn_of_and_F0FF w _ h
  rw [decodeWord, hop]
  change decodeFamily0 w (fields w) = _
  rw [decodeFamily0, hnn]
  rfl

theorem decodeWord_skipEqNn {w : Word} (h : w &&& 0xF000 = 0x3000) :
    decodeWord w = .ok (.skipEqNn (regOf (fields w).x) (fields w).nn) := by
  rw [decodeWord, fields_op_of_and_F000 w _ h]
  rfl

theorem decodeWord_skipNeNn {w : Word} (h : w &&& 0xF000 = 0x4000) :
    decodeWord w = .ok (.skipNeNn (regOf (fields w).x) (fields w).nn) := by
  rw [decodeWord, fields_op_of_and_F000 w _ h]
  rfl

theorem decodeWord_skipEqVy {w : Word} (h : w &&& 0xF000 = 0x5000) :
    decodeWord w = .ok (.skipEqVy (regOf (fields w).x) (regOf (fields w).y) (fields w).n) := by
  rw [decodeWord, fields_op_of_and_F000 w _ h]
  rfl

theorem decodeWord_skipNeVy {w : Word} (h : w &&& 0xF000 = 0x9000) :
    decodeWord w = .ok (.skipNeVy (regOf (fields w).x) (regOf (fields w).y) (fields w).n) := by
  rw [decodeWord, fields_op_of_and_F000 w _ h]
  rfl

end Sys2Proof

namespace Sys2Proof.Machine

/-! ### CALL and RETURN by the depth of the stack (R103, R104) -/

theorem exec_call_of_room {nnn : Addr12} {s : State} (h : s.stack.length ≠ Config.stackDepth) :
    exec (.call nnn) s = .next ((s.push s.pc).setPc (addressOperand nnn)) :=
  congrArg Host.Outcome.next (if_neg h)

theorem exec_call_of_full {nnn : Addr12} {s : State} (h : s.stack.length = Config.stackDepth) :
    exec (.call nnn) s = .next (s.raiseExecute .stackOverflow none (.call nnn)) :=
  congrArg Host.Outcome.next (if_pos h)

theorem exec_ret_of_top {x : Nibble} {s : State} {entry : Word} (h : s.top = some entry) :
    exec (.ret x) s = .next (s.dropTop.setPc entry) := by
  rw [exec, execReturn, h]

theorem exec_ret_of_empty {x : Nibble} {s : State} (h : s.top = none) :
    exec (.ret x) s = .next (s.raiseExecute .stackUnderflow none (.ret x)) := by
  rw [exec, execReturn, h]

/-- Settles O26: CALL branches on the depth alone, and each branch is one shared operation on the state. -/
theorem callPushesTheReturnAddressOrOverflows : Obligations.CallPushesTheReturnAddressOrOverflows :=
  ⟨fun _ => decodeWord_call, fun _ _ => exec_call_of_room, fun _ _ => exec_call_of_full⟩

/-- Settles O27: the top of `below ++ [entry]` is `entry`, and dropping it leaves `below`. -/
theorem returnPopsTheLastCallOrUnderflows : Obligations.ReturnPopsTheLastCallOrUnderflows := by
  refine ⟨fun _ => decodeWord_ret, fun x s below entry hs => ?_, fun x s hs => ?_⟩
  · have htop : s.top = some entry := by rw [State.top_eq, hs, List.getLast?_concat]
    have hdrop : s.dropTop = { s with stack := below } := by
      rw [State.dropTop, hs, List.dropLast_concat, State.setStack]
    rw [exec_ret_of_top htop, hdrop, State.setPc]
  · have htop : s.top = none := by rw [State.top_eq, hs, List.getLast?_nil]
    exact exec_ret_of_empty htop

/-! ### The jump targets (R101, R102) -/

/-- The sum of JUMP_OFFSET as a number, with no reduction modulo 4096 (R102). -/
theorem addressOperand_add_setWidth (nnn : Addr12) (b : Byte) :
    addressOperand nnn + b.setWidth 16 = BitVec.ofNat 16 (nnn.toNat + b.toNat) := by
  rw [BitVec.ofNat_add, BitVec.ofNat_toNat, BitVec.ofNat_toNat, addressOperand]

theorem exec_jumpOffset (nnn : Addr12) (s : State) :
    exec (.jumpOffset nnn) s = .next (s.setPc (BitVec.ofNat 16 (nnn.toNat + s.v[0].toNat))) := by
  rw [← addressOperand_add_setWidth]
  rfl

/-- Settles O25: the target of JUMP_OFFSET is at most 0xFFF + 0xFF, so its 16 bits hold the whole sum. -/
theorem jumpsSetPc : Obligations.JumpsSetPc := by
  refine ⟨fun _ => decodeWord_jump, fun _ => decodeWord_jumpOffset, fun _ _ => rfl,
    fun nnn s => ⟨exec_jumpOffset nnn s, ?_⟩⟩
  have hnnn : nnn.toNat < 0x1000 := nnn.isLt
  have hv : s.v[0].toNat < 0x100 := s.v[0].isLt
  omega

/-! ### The register skips (R105 to R108) -/

/-- A skip on equality: 2 more if the bytes are equal, else the same state (R105, R107). -/
theorem State.skipIf_beq (s : State) (a b : Byte) :
    s.skipIf (a == b) = if a = b then { s with pc := s.pc + 2 } else s := by
  by_cases h : a = b
  · rw [if_pos h, beq_iff_eq.2 h]; rfl
  · rw [if_neg h, beq_false_of_ne h]; rfl

/-- A skip on inequality: the same state if the bytes are equal, else 2 more (R106, R108). -/
theorem State.skipIf_bne (s : State) (a b : Byte) :
    s.skipIf (a != b) = if a = b then s else { s with pc := s.pc + 2 } := by
  by_cases h : a = b
  · rw [if_pos h, bne_eq_false_iff_eq.2 h]; rfl
  · rw [if_neg h, bne_iff_ne.2 h]; rfl

/-- Settles O28: the four skips are `skipIf` on two equalities and two inequalities of bytes. -/
theorem registerSkipsMovePcByTwoMore : Obligations.RegisterSkipsMovePcByTwoMore := by
  refine ⟨fun _ => decodeWord_skipEqNn, fun _ => decodeWord_skipNeNn, fun _ => decodeWord_skipEqVy,
    fun _ => decodeWord_skipNeVy, fun x y nn n s => ⟨?_, ?_, ?_, ?_⟩⟩
  · exact congrArg Host.Outcome.next (s.skipIf_beq s.v[x] nn)
  · exact congrArg Host.Outcome.next (s.skipIf_bne s.v[x] nn)
  · exact congrArg Host.Outcome.next (s.skipIf_beq s.v[x] s.v[y])
  · exact congrArg Host.Outcome.next (s.skipIf_bne s.v[x] s.v[y])

end Sys2Proof.Machine

namespace Sys2Proof

/-! ### The words of arithmetic, logic and random decode to their instructions (R75, R78) -/

theorem decodeWord_setVx {w : Word} (h : w &&& 0xF000 = 0x6000) :
    decodeWord w = .ok (.setVx (regOf (fields w).x) (fields w).nn) := by
  rw [decodeWord, fields_op_of_and_F000 w _ h]
  rfl

theorem decodeWord_addVx {w : Word} (h : w &&& 0xF000 = 0x7000) :
    decodeWord w = .ok (.addVx (regOf (fields w).x) (fields w).nn) := by
  rw [decodeWord, fields_op_of_and_F000 w _ h]
  rfl

theorem decodeWord_rand {w : Word} (h : w &&& 0xF000 = 0xC000) :
    decodeWord w = .ok (.rand (regOf (fields w).x) (fields w).nn) := by
  rw [decodeWord, fields_op_of_and_F000 w _ h]
  rfl

/-- A word that the row `8XYN` selects is decoded by family 0x8 with the N of the row's pattern `c` (R78); for a
concrete pattern the family's answer is then the row's instruction by computation. -/
theorem decodeWord_eq_decodeFamily8 {w c : Word} (h : w &&& 0xF00F = c) (hc : (fields c).op = 0x8) :
    decodeWord w = decodeFamily8 w { fields w with n := (fields c).n } := by
  obtain ⟨hop, hn⟩ := fields_op_n_of_and_F00F w c h
  rw [decodeWord, hop, hc, ← hn]
  rfl

end Sys2Proof

namespace Sys2Proof.Machine

/-! ### The results and flags as numbers (R121, R126 to R130) -/

/-- A difference of bytes as a number: 256 is added first, so the subtraction borrows nothing (R127, R129). -/
theorem byte_sub_eq_ofNat (a b : Byte) : a - b = BitVec.ofNat 8 (a.toNat + 256 - b.toNat) := by
  have hb : b.toNat < 256 := b.isLt
  have hsum : a.toNat + 256 - b.toNat = 2 ^ 8 - b.toNat + a.toNat := by omega
  rw [BitVec.sub_def, hsum]

theorem flagByte_decide (p : Prop) [Decidable p] : flagByte (decide p) = if p then 1 else 0 := by
  by_cases hp : p <;> simp [flagByte, hp]

theorem carryFlag_eq_ite (a b : Byte) : carryFlag a b = if a.toNat + b.toNat > 255 then 1 else 0 :=
  flagByte_decide _

theorem noBorrowFlag_eq_ite (a b : Byte) : noBorrowFlag a b = if a.toNat ≥ b.toNat then 1 else 0 :=
  flagByte_decide _

/-- The bit that a right shift loses is the remainder by 2 (R128). -/
theorem shiftedOutRight_eq_mod (a : Byte) : shiftedOutRight a = BitVec.ofNat 8 (a.toNat % 2) := by
  rw [← Nat.and_one_is_mod, BitVec.ofNat_and, BitVec.ofNat_toNat, BitVec.setWidth_eq]
  rfl

/-- The bit that a left shift loses is the quotient by 128, which a byte bounds by 1 (R130). -/
theorem shiftedOutLeft_eq_div (a : Byte) : shiftedOutLeft a = BitVec.ofNat 8 (a.toNat / 128) := by
  have ha : a.toNat < 256 := a.isLt
  have hshift : (a >>> 7).toNat = a.toNat / 128 := by rw [BitVec.toNat_ushiftRight, Nat.shiftRight_eq_div_pow]
  have hbit : a.toNat / 128 % 2 = a.toNat / 128 := by omega
  have hright : shiftedOutLeft a = shiftedOutRight (a >>> 7) := rfl
  rw [hright, shiftedOutRight_eq_mod, hshift, hbit]

theorem byte_ushiftRight_one_eq_div (a : Byte) : a >>> 1 = BitVec.ofNat 8 (a.toNat / 2) := by
  have ha : a.toNat < 256 := a.isLt
  have hhalf : a.toNat / 2 < 2 ^ 8 := by omega
  apply BitVec.eq_of_toNat_eq
  rw [BitVec.toNat_ushiftRight, Nat.shiftRight_one, BitVec.toNat_ofNat, Nat.mod_eq_of_lt hhalf]

/-- The double is taken modulo 256 on both sides (R130). -/
theorem byte_shiftLeft_one_eq_mul (a : Byte) : a <<< 1 = BitVec.ofNat 8 (a.toNat * 2) := by
  apply BitVec.eq_of_toNat_eq
  rw [BitVec.toNat_shiftLeft, Nat.shiftLeft_eq, BitVec.toNat_ofNat, pow_one]

/-! ### The meanings of arithmetic, logic and random -/

/-- Settles O29: each is one register write, and the sum of bytes is by definition that of their numbers. -/
theorem immediateFormsWriteVx : Obligations.ImmediateFormsWriteVx :=
  ⟨fun _ => decodeWord_setVx, fun _ => decodeWord_addVx, fun x nn s =>
    ⟨rfl, congrArg (fun b => Host.Outcome.next (s.writeV x b)) (BitVec.add_def s.v[x] nn)⟩⟩

/-- Settles O30: N picks the instruction in family 0x8, and each instruction is one register write. -/
theorem copyAndLogicWriteVxAndNoFlag : Obligations.CopyAndLogicWriteVxAndNoFlag :=
  ⟨fun _ h => decodeWord_eq_decodeFamily8 h rfl, fun _ h => decodeWord_eq_decodeFamily8 h rfl,
    fun _ h => decodeWord_eq_decodeFamily8 h rfl, fun _ h => decodeWord_eq_decodeFamily8 h rfl,
    fun _ _ _ => ⟨rfl, rfl, rfl, rfl⟩⟩

/-- Settles O31: the sum is written before the carry. -/
theorem addWritesTheSumThenTheCarry : Obligations.AddWritesTheSumThenTheCarry := by
  refine ⟨fun _ h => decodeWord_eq_decodeFamily8 h rfl, fun x y s => ?_⟩
  rw [← BitVec.add_def, ← carryFlag_eq_ite]
  rfl

/-- Settles O32: the two subtractions are one difference and one flag, with the operands exchanged. -/
theorem subtractionsWriteTheDifferenceThenNoBorrow : Obligations.SubtractionsWriteTheDifferenceThenNoBorrow := by
  refine ⟨fun _ h => decodeWord_eq_decodeFamily8 h rfl, fun _ h => decodeWord_eq_decodeFamily8 h rfl,
    fun x y s => ⟨?_, ?_⟩⟩
  · rw [← byte_sub_eq_ofNat, ← noBorrowFlag_eq_ite]
    rfl
  · rw [← byte_sub_eq_ofNat, ← noBorrowFlag_eq_ite]
    rfl

/-- Settles O33: the bit shifted out is written before the shifted value. -/
theorem shiftsWriteTheBitShiftedOutThenTheResult : Obligations.ShiftsWriteTheBitShiftedOutThenTheResult := by
  refine ⟨fun _ h => decodeWord_eq_decodeFamily8 h rfl, fun _ h => decodeWord_eq_decodeFamily8 h rfl,
    fun x y s => ⟨?_, ?_⟩⟩
  · rw [← shiftedOutRight_eq_mod, ← byte_ushiftRight_one_eq_div]
    rfl
  · rw [← shiftedOutLeft_eq_div, ← byte_shiftLeft_one_eq_mul]
    rfl

/-- Settles O34: a bit of the masked byte is a bit of the mask. -/
theorem randMasksTheSampledByte : Obligations.RandMasksTheSampledByte := by
  refine ⟨fun _ => decodeWord_rand, fun x nn r s hr => ⟨?_, fun k hk => ?_⟩⟩
  · rw [← hr]
    rfl
  · rw [BitVec.getLsbD_and, Bool.and_eq_true] at hk
    exact hk.1

end Sys2Proof.Machine

namespace Sys2Proof

/-! ### The words of index and memory decode to their instructions (R75, R80) -/

theorem decodeWord_setI {w : Word} (h : w &&& 0xF000 = 0xA000) : decodeWord w = .ok (.setI (fields w).nnn) := by
  rw [decodeWord, fields_op_of_and_F000 w _ h]
  rfl

/-- A word that the row `FXNN` selects is decoded by family 0xF with the NN of the row's pattern `c` (R80); for a
concrete pattern the family's answer is then the row's instruction by computation. -/
theorem decodeWord_eq_decodeFamilyF {w c : Word} (h : w &&& 0xF0FF = c) (hc : (fields c).op = 0xF) :
    decodeWord w = decodeFamilyF w { fields w with nn := (fields c).nn } := by
  obtain ⟨hop, hnn⟩ := fields_op_nn_of_and_F0FF w c h
  rw [decodeWord, hop, hc, ← hnn]
  rfl

end Sys2Proof

namespace Sys2Proof.Machine

/-! ### What a store at `I` that fits does to memory (R153, R155) -/

section
variable {s : State} {bytes : List Byte} (i : Instr) (hfit : s.iReg.toNat + bytes.length ≤ 0x1000)
include hfit

/-- A store that fits changes memory alone. -/
theorem storeAtI_frame : storeAtI s bytes i = { s with mem := (storeAtI s bytes i).mem } := by
  rw [storeAtI_fits s bytes i (.inl hfit)]
  rfl

theorem readByte_storeAtI_inside (hm : s.mem.wf = true) (k : Nat) (hk : k < bytes.length) :
    (storeAtI s bytes i).mem.readByte (effectiveAddress s k) = bytes[k] := by
  rw [storeAtI_fits s bytes i (.inl hfit)]
  exact readByte_writeBytes_inside s.mem _ k bytes hm hk hfit

/-- An address that is none of the stored ones lies below `I` or above the last byte. -/
theorem readByte_storeAtI_outside (hm : s.mem.wf = true) (a : Nat)
    (ha : ∀ k, k < bytes.length → a ≠ effectiveAddress s k) :
    (storeAtI s bytes i).mem.readByte a = s.mem.readByte a := by
  have hout : a < s.iReg.toNat ∨ s.iReg.toNat + bytes.length ≤ a := by
    by_contra! hin
    exact ha (a - s.iReg.toNat) (by omega) (by rw [effectiveAddress_eq]; omega)
  rw [storeAtI_fits s bytes i (.inl hfit)]
  exact readByte_writeBytes_outside s.mem _ a bytes hm hout

end

/-! ### BCD and STORE_REGS -/

/-- Settles O37: BCD is a store at `I` of at least one digit. -/
theorem bcdStoresTheDigitsAtI : Obligations.BcdStoresTheDigitsAtI := by
  refine ⟨fun _ h => decodeWord_eq_decodeFamilyF h rfl, fun x s hm => ⟨fun hfit => ?_, fun hout => ?_⟩⟩
  · exact ⟨_, rfl, storeAtI_frame _ hfit, readByte_storeAtI_inside _ hfit hm, readByte_storeAtI_outside _ hfit hm⟩
  · exact execBcdWith_faults .variableLength x s hout

/-- Settles O38: STORE_REGS is a store at `I` of the X + 1 bytes V0..Vx. -/
theorem storeRegsStoresV0ToVxAtI : Obligations.StoreRegsStoresV0ToVxAtI := by
  refine ⟨fun _ h => decodeWord_eq_decodeFamilyF h rfl, fun x s hm => ?_⟩
  have hlen := length_firstRegisters s x
  refine ⟨fun hin => ?_, fun hout => ?_⟩
  · have hfit : s.iReg.toNat + (s.firstRegisters (registerCount x)).length ≤ 0x1000 := by omega
    refine ⟨_, rfl, storeAtI_frame _ hfit, fun k hk => ?_, fun a ha => ?_⟩
    · have hk' : k.val < (s.firstRegisters (registerCount x)).length := hlen ▸ Nat.lt_succ_of_le hk
      rw [readByte_storeAtI_inside _ hfit hm k.val hk', getElem_firstRegisters s x k.val hk' k.isLt]
      rfl
    · refine readByte_storeAtI_outside _ hfit hm a fun k hk => ?_
      have hkx : k < x.val + 1 := hlen ▸ hk
      exact ha ⟨k, by omega⟩ (Nat.le_of_lt_succ hkx)
  · exact congrArg Host.Outcome.next (storeAtI_faults s _ _ (by omega) (by omega))

/-! ### LOAD_REGS (R156) -/

theorem exec_loadRegs_of_fits {x : RegIdx} {s : State} (h : s.iReg.toNat + x.val ≤ 0xFFF) :
    exec (.loadRegs x) s = .next (s.loadRegisters (readBytes s.mem s.iReg.toNat (registerCount x))) := by
  have hin : firstOutOfRange (effectiveAddress s 0) (registerCount x) = none :=
    firstOutOfRange_eq_none _ _ (.inl (by rw [effectiveAddress_eq, registerCount]; omega))
  rw [exec, execLoadRegs, hin]
  rfl

theorem exec_loadRegs_of_misfits {x : RegIdx} {s : State} (h : 0xFFF < s.iReg.toNat + x.val) :
    exec (.loadRegs x) s =
      .next (s.raiseExecute .memoryFault (some (max s.iReg.toNat 0x1000)) (.loadRegs x)) := by
  have hout : firstOutOfRange (effectiveAddress s 0) (registerCount x) = some (max s.iReg.toNat 0x1000) :=
    firstOutOfRange_eq_some _ _ (by rw [effectiveAddress_eq, registerCount]; omega) x.val.succ_pos
  rw [exec, execLoadRegs, hout]

/-- The registers up to Vx hold the bytes read from `a` on, those above Vx what they held. -/
theorem getElem_loadRegisters_readBytes (s : State) (m : Memory) (a : Nat) (x k : RegIdx) :
    (s.loadRegisters (readBytes m a (registerCount x))).v[k] = if k ≤ x then m.readByte (a + k.val) else s.v[k] := by
  refine (getElem_setRegistersFrom s.v 0 _ k.val k.isLt).trans ?_
  have hin : 0 ≤ k.val ∧ k.val - 0 < (readBytes m a (registerCount x)).length ↔ k ≤ x := by
    rw [length_readBytes, registerCount, Fin.le_def]
    omega
  by_cases hk : k ≤ x
  · rw [if_pos hk, dif_pos (hin.2 hk), getElem_readBytes, Nat.sub_zero]
  · rw [if_neg hk, dif_neg (mt hin.1 hk)]
    rfl

/-- Settles O39: in range, the bytes read from `I` on go to V0..Vx; out of range, the check comes first. -/
theorem loadRegsLoadsV0ToVxFromI : Obligations.LoadRegsLoadsV0ToVxFromI := by
  refine ⟨fun _ h => decodeWord_eq_decodeFamilyF h rfl, fun x s => ⟨fun hfit => ?_, exec_loadRegs_of_misfits⟩⟩
  exact ⟨_, exec_loadRegs_of_fits hfit, rfl, getElem_loadRegisters_readBytes s s.mem s.iReg.toNat x⟩

/-! ### The index instructions (R150 to R152) -/

/-- The sum of ADD_I as a number, reduced modulo 2^16 (R151). -/
theorem word_add_setWidth (a : Word) (b : Byte) : a + b.setWidth 16 = BitVec.ofNat 16 (a.toNat + b.toNat) := by
  rw [BitVec.ofNat_add, BitVec.ofNat_toNat, BitVec.ofNat_toNat, BitVec.setWidth_eq]

/-- The glyph that Vx selects is its remainder by 16: the high nibble is ignored (R152). -/
theorem fontAddress_eq_mod (b : Byte) :
    fontAddress b = BitVec.ofNat 16 (5 * (b.toNat % 16) + Config.fontBase.val) := by
  have hlow : (b &&& 0x0F).toNat = b.toNat % 16 := by
    rw [BitVec.toNat_and]
    exact Nat.and_two_pow_sub_one_eq_mod b.toNat 4
  rw [fontAddress, hlow]

/-- Settles O35: each instruction is one write of `I`. -/
theorem indexInstructionsWriteI : Obligations.IndexInstructionsWriteI := by
  refine ⟨fun _ => decodeWord_setI, fun _ h => decodeWord_eq_decodeFamilyF h rfl,
    fun _ h => decodeWord_eq_decodeFamilyF h rfl, fun _ _ => rfl, fun x s => ⟨?_, ?_⟩⟩
  · rw [← word_add_setWidth]
    rfl
  · rw [← fontAddress_eq_mod]
    rfl

/-! ### The decimal digits (R154) -/

/-- The loop of `Digits` puts the decimal digits of `n` in front of `ds`, the most significant first, when `n` has no
more digits than passes. -/
theorem map_toNat_digitLoop (passes n : Nat) (ds : List Byte) (hn : n < 10 ^ passes) :
    (digitLoop passes n ds).map BitVec.toNat = (Nat.digits 10 n).reverse ++ ds.map BitVec.toNat := by
  induction passes generalizing n ds with
  | zero =>
    have hzero : n = 0 := by omega
    rw [digitLoop, hzero, Nat.digits_zero]
    rfl
  | succ passes ih =>
    rw [digitLoop]
    split
    next hzero => rw [hzero, Nat.digits_zero]; rfl
    next hpos =>
      have hmod : n % 10 < 2 ^ 8 := (Nat.mod_lt n (by decide)).trans (by decide)
      have hdiv : n / 10 < 10 ^ passes := by omega
      rw [ih _ _ hdiv, Nat.digits_def' (by decide) (Nat.pos_of_ne_zero hpos), List.reverse_cons, List.map_cons,
        BitVec.toNat_ofNat, Nat.mod_eq_of_lt hmod, List.append_cons]

/-- The VARIABLE digits of a byte other than 0 are the library's decimal digits, which come least significant first. -/
theorem map_toNat_digits {v : Byte} (hv : v ≠ 0) :
    (digits .variableLength v).map BitVec.toNat = (Nat.digits 10 v.toNat).reverse := by
  have hlt : v.toNat < 10 ^ 3 := v.isLt.trans (by decide)
  rw [digits, if_neg hv, map_toNat_digitLoop 3 v.toNat [] hlt, List.map_nil, List.append_nil]

theorem head?_digits_ne_zero {v : Byte} (hv : v ≠ 0) : (digits .variableLength v).head? ≠ some 0 := by
  intro hhead
  have hpos : v.toNat ≠ 0 := fun h => hv (BitVec.eq_of_toNat_eq h)
  have hlast : (Nat.digits 10 v.toNat).getLast? = some 0 := by
    rw [← List.head?_reverse, ← map_toNat_digits hv, List.head?_map, hhead]
    rfl
  rw [List.getLast?_eq_some_getLast (Nat.digits_ne_nil_iff_ne_zero.2 hpos)] at hlast
  exact Nat.getLast_digit_ne_zero 10 hpos (Option.some.inj hlast)

theorem digits_lt_ten {v d : Byte} (hv : v ≠ 0) (hd : d ∈ digits .variableLength v) : d.toNat < 10 := by
  have hmem : d.toNat ∈ Nat.digits 10 v.toNat := by
    rw [← List.mem_reverse, ← map_toNat_digits hv]
    exact List.mem_map_of_mem hd
  exact Nat.digits_lt_base (by decide) hmem

/-- Reading the digits from the most significant on gives the byte back. -/
theorem foldl_digits {v : Byte} (hv : v ≠ 0) :
    (digits .variableLength v).foldl (fun acc d => 10 * acc + d.toNat) 0 = v.toNat := by
  calc (digits .variableLength v).foldl (fun acc d => 10 * acc + d.toNat) 0
      = ((digits .variableLength v).map BitVec.toNat).foldl (fun acc n => 10 * acc + n) 0 := List.foldl_map.symm
    _ = (Nat.digits 10 v.toNat).foldr (fun n acc => 10 * acc + n) 0 := by
      rw [map_toNat_digits hv, List.foldl_reverse]
    _ = Nat.ofDigits 10 (Nat.digits 10 v.toNat) := by
      simp only [Nat.ofDigits_eq_foldr, Nat.add_comm, Nat.cast_id]
    _ = v.toNat := Nat.ofDigits_digits 10 v.toNat

/-- Settles O36: a byte other than 0 has the decimal digits of its number; the other two forms are definitions. -/
theorem digitsAreTheDecimalDigits : Obligations.DigitsAreTheDecimalDigits := by
  refine fun v => ⟨fun hv => ?_, fun hv => ?_, rfl⟩
  · rw [digits, if_pos hv]
  · exact ⟨head?_digits_ne_zero hv, fun _ => digits_lt_ten hv, foldl_digits hv⟩

end Sys2Proof.Machine

namespace Sys2Proof

/-! ### The words of clear and draw decode to their instructions (R75, R76) -/

/-- A word that the row `0XNN` selects is decoded by family 0x0 with the NN of the row's pattern `c`, whatever X is
(R76); for a concrete pattern the family's answer is then the row's instruction by computation. -/
theorem decodeWord_eq_decodeFamily0 {w c : Word} (h : w &&& 0xF0FF = c) (hc : (fields c).op = 0x0) :
    decodeWord w = decodeFamily0 w { fields w with nn := (fields c).nn } := by
  obtain ⟨hop, hnn⟩ := fields_op_nn_of_and_F0FF w c h
  rw [decodeWord, hop, hc, ← hnn]
  rfl

theorem decodeWord_draw {w : Word} (h : w &&& 0xF000 = 0xD000) :
    decodeWord w = .ok (.draw (regOf (fields w).x) (regOf (fields w).y) (fields w).n.toFin) := by
  rw [decodeWord, fields_op_of_and_F000 w _ h]
  rfl

end Sys2Proof

namespace Sys2Proof.Machine

/-! ### The whole sprite and its flag (R171 to R174) -/

/-- A flag byte is one of the two values of a flag (R22). -/
theorem flagByte_eq_zero_or_one (b : Bool) : flagByte b = 0 ∨ flagByte b = 1 := by
  cases b
  · exact .inl rfl
  · exact .inr rfl

theorem flagByte_eq_one_iff (b : Bool) : flagByte b = 1 ↔ b = true := by
  cases b <;> decide

section
variable (fb : Framebuffer) (x0 y0 : Nat) (rows : List Byte)

theorem drawSprite_fb (p : Fin 64) (q : Fin 32) :
    (drawSprite fb x0 y0 rows).1[q][p] = (fb[q][p] ^^ spriteBit rows x0 y0 p.val q.val) :=
  drawRows_fb (fb, false) x0 y0 rows p q

/-- A collision is noted when some pixel went from on to off (R174): on a pixel that was on, the XOR leaves off
exactly where the sprite's bit is set. -/
theorem drawSprite_collision :
    (drawSprite fb x0 y0 rows).2 = true ↔
      ∃ (p : Fin 64) (q : Fin 32), fb[q][p] = true ∧ (drawSprite fb x0 y0 rows).1[q][p] = false := by
  have hset : (drawSprite fb x0 y0 rows).2 = true ↔
      ∃ (p : Fin 64) (q : Fin 32), spriteBit rows x0 y0 p.val q.val = true ∧ fb[q][p] = true := by
    rw [drawSprite, drawRows_collision]
    exact or_iff_right Bool.false_ne_true
  refine hset.trans (exists_congr fun p => exists_congr fun q => and_comm.trans (and_congr_right fun hon => ?_))
  rw [drawSprite_fb, hon, Bool.true_xor, Bool.not_eq_false']

end

/-! ### DRAW by its range check (R171) -/

/-- What DRAW draws when all its rows are in range: the N bytes from `I` on, at (Vx mod 64, Vy mod 32). -/
def spriteDrawing (x y : RegIdx) (n : RowCount) (s : State) : Drawing :=
  drawSprite s.fb (spriteColumn (s.readV x)) (spriteRow (s.readV y)) (readBytes s.mem (effectiveAddress s 0) n.val)

theorem exec_draw_of_fits {x y : RegIdx} {n : RowCount} {s : State}
    (h : s.iReg.toNat + n.val ≤ 0x1000 ∨ n.val = 0) :
    exec (.draw x y n) s =
      .next ((s.setFb (spriteDrawing x y n s).1).writeV vf (collisionFlag (spriteDrawing x y n s).2)) := by
  have hin : firstOutOfRange (effectiveAddress s 0) n.val = none := firstOutOfRange_eq_none _ _ h
  rw [exec, execDraw, hin]
  rfl

theorem exec_draw_of_misfits {x y : RegIdx} {n : RowCount} {s : State} (h : 0x1000 < s.iReg.toNat + n.val)
    (hn : 0 < n.val) :
    exec (.draw x y n) s =
      .next (s.raiseExecute .memoryFault (some (max s.iReg.toNat 0x1000)) (.draw x y n)) := by
  have hout : firstOutOfRange (effectiveAddress s 0) n.val = some (max s.iReg.toNat 0x1000) :=
    firstOutOfRange_eq_some _ _ h hn
  rw [exec, execDraw, hout]

/-- Settles O41: in range, DRAW is the sprite's XOR and then its collision flag; out of range, the check comes
first. -/
theorem drawXorsTheSpriteClippedAndReportsCollision : Obligations.DrawXorsTheSpriteClippedAndReportsCollision := by
  refine ⟨fun _ => decodeWord_draw, fun x y n s => ⟨fun hin => ?_, fun hn hout => ?_⟩⟩
  · have hfit : s.iReg.toNat + n.val ≤ 0x1000 ∨ n.val = 0 := by omega
    exact ⟨_, _, exec_draw_of_fits hfit, rfl, drawSprite_fb _ _ _ _, flagByte_eq_zero_or_one _,
      (flagByte_eq_one_iff _).trans (drawSprite_collision _ _ _ _)⟩
  · exact exec_draw_of_misfits (by omega) hn

/-! ### CLS (R170) -/

/-- Settles O40: CLS is one write of the cleared framebuffer. -/
theorem clsTurnsEveryPixelOff : Obligations.ClsTurnsEveryPixelOff :=
  ⟨fun _ h => decodeWord_eq_decodeFamily0 h rfl, fun _ _ => ⟨_, rfl, rfl, getElem_clearedFramebuffer⟩⟩

end Sys2Proof.Machine

namespace Sys2Proof

/-! ### The words of the key skips decode to their instructions (R75, R79) -/

/-- A word that the row `EXNN` selects is decoded by family 0xE with the NN of the row's pattern `c` (R79); for a
concrete pattern the family's answer is then the row's instruction by computation. -/
theorem decodeWord_eq_decodeFamilyE {w c : Word} (h : w &&& 0xF0FF = c) (hc : (fields c).op = 0xE) :
    decodeWord w = decodeFamilyE w { fields w with nn := (fields c).nn } := by
  obtain ⟨hop, hnn⟩ := fields_op_nn_of_and_F0FF w c h
  rw [decodeWord, hop, hc, ← hnn]
  rfl

end Sys2Proof

namespace Sys2Proof.Machine

/-! ### The key skips (R185, R186) -/

/-- The key test as equality of numbers: a register above 0xF equals no code (R185). -/
theorem keyPressed_iff_toNat (s : State) (code : Byte) :
    keyPressed s code = true ↔ ∃ k ∈ s.keys, k.toNat = code.toNat := by
  have hcode (k : Nibble) : k.setWidth 8 = code ↔ k.toNat = code.toNat := by
    rw [← BitVec.toNat_inj, BitVec.toNat_setWidth_of_le (by decide)]
  simp only [keyPressed_iff, hcode]

theorem exec_skipKey (x : RegIdx) (s : State) :
    exec (.skipKey x) s = .next (s.skipIf (keyPressed s s.v[x])) := rfl

theorem exec_skipNotKey (x : RegIdx) (s : State) :
    exec (.skipNotKey x) s = .next (s.skipIf (!keyPressed s s.v[x])) := rfl

/-- Settles O43: the two instructions are one skip on the key test and on its negation. -/
theorem keySkipsTestMembershipOnce : Obligations.KeySkipsTestMembershipOnce := by
  refine ⟨fun _ h => decodeWord_eq_decodeFamilyE h rfl, fun _ h => decodeWord_eq_decodeFamilyE h rfl,
    fun x s => ⟨fun hdown => ?_, fun hup => ?_⟩⟩
  · have hkey : keyPressed s s.v[x] = true := (keyPressed_iff_toNat s s.v[x]).2 hdown
    rw [exec_skipKey, exec_skipNotKey, hkey]
    exact ⟨rfl, rfl⟩
  · have hkey : keyPressed s s.v[x] = false := by
      rw [Bool.eq_false_iff, Ne, keyPressed_iff_toNat]
      rintro ⟨k, hk, heq⟩
      exact hup k hk heq
    rw [exec_skipKey, exec_skipNotKey, hkey]
    exact ⟨rfl, rfl⟩

/-! ### GET_KEY by the key sample (R187) -/

theorem exec_getKey_of_cons {x : RegIdx} {k : Nibble} {ks : List Nibble} {s : State} (h : s.keys = k :: ks) :
    exec (.getKey x) s = .next (s.writeV x (k.setWidth 8)) := by
  rw [exec, execGetKey, h]

theorem exec_getKey_of_nil {x : RegIdx} {s : State} (h : s.keys = []) :
    exec (.getKey x) s = .next (s.setPc (s.pc - 2)) := by
  rw [exec, execGetKey, h]

/-- Settles O44: GET_KEY branches on the sample alone, and each branch is one write. -/
theorem getKeyLoadsTheFirstKeyOrRewinds : Obligations.GetKeyLoadsTheFirstKeyOrRewinds := by
  refine ⟨fun _ h => decodeWord_eq_decodeFamilyF h rfl, fun x k ks s hkeys => ?_,
    fun _ _ => exec_getKey_of_nil⟩
  rw [exec_getKey_of_cons hkeys, BitVec.ofNat_toNat, State.writeV]

/-! ### The timer instructions (R190 to R192) -/

/-- The countdown as truncated subtraction: it stays at 0 (R29, R212). -/
theorem toNat_countDown (b : Byte) : (countDown b).toNat = b.toNat - 1 := by
  rw [countDown]
  split
  · next hpos => exact BitVec.toNat_sub_of_le hpos
  · next hzero => omega

/-- The sound output is 1 exactly while ST is not 0. -/
theorem soundActive_iff (s : State) : soundActive s = true ↔ s.st ≠ 0 := bne_iff_ne

/-- Settles O45: each instruction is one copy between Vx and a timer, and a tick counts the copied ST down or keeps
it. -/
theorem timerInstructionsMoveABetweenVxAndATimer : Obligations.TimerInstructionsMoveABetweenVxAndATimer := by
  refine ⟨fun _ h => decodeWord_eq_decodeFamilyF h rfl, fun _ h => decodeWord_eq_decodeFamilyF h rfl,
    fun _ h => decodeWord_eq_decodeFamilyF h rfl, fun x s => ⟨rfl, rfl, s.setSt s.v[x], rfl, rfl, ?_, ?_, rfl⟩⟩
  · exact soundActive_iff (s.setSt s.v[x])
  · exact toNat_countDown s.v[x]

end Sys2Proof.Machine

namespace Sys2Proof

/-! ### The word of a decoded instruction (R71, R75 to R80) -/

section
variable {w : Word} {op : Nibble} {i : Instr}

theorem word4_of_op (hop : (fields w).op = op) : word4 op (fields w).x (fields w).y (fields w).n = w := by
  rw [← hop, word4_fields]

theorem wordXNN_of_op (hop : (fields w).op = op) : wordXNN op (regOf (fields w).x) (fields w).nn = w := by
  rw [← hop, wordXNN_fields]

theorem wordNNN_of_op (hop : (fields w).op = op) : wordNNN op (fields w).nnn = w := by
  rw [← hop, wordNNN_fields]

/-- In family 0x0 the byte NN fixes Y and N (R76). -/
theorem encode_of_decodeFamily0 (hop : (fields w).op = 0x0) (h : decodeFamily0 w (fields w) = .ok i) :
    encode i = w := by
  have hw := word4_of_op hop
  obtain ⟨hy, hn⟩ := fields_y_n_of_nn w
  rw [hy, hn] at hw
  rw [decodeFamily0] at h
  split at h
  case h_1 hnn | h_2 hnn => cases h; rw [hnn] at hw; exact hw
  case h_3 => cases h

theorem encode_of_decodeFamily8 (hop : (fields w).op = 0x8) (h : decodeFamily8 w (fields w) = .ok i) :
    encode i = w := by
  have hw := word4_of_op hop
  rw [decodeFamily8] at h
  split at h
  case h_10 => cases h
  all_goals next hn => cases h; rw [hn] at hw; exact hw

theorem encode_of_decodeFamilyE (hop : (fields w).op = 0xE) (h : decodeFamilyE w (fields w) = .ok i) :
    encode i = w := by
  have hw := wordXNN_of_op hop
  rw [decodeFamilyE] at h
  split at h
  case h_1 hnn | h_2 hnn => cases h; rw [hnn] at hw; exact hw
  case h_3 => cases h

theorem encode_of_decodeFamilyF (hop : (fields w).op = 0xF) (h : decodeFamilyF w (fields w) = .ok i) :
    encode i = w := by
  have hw := wordXNN_of_op hop
  rw [decodeFamilyF] at h
  split at h
  case h_10 => cases h
  all_goals next hnn => cases h; rw [hnn] at hw; exact hw

/-- A decoded instruction stands for the one word it was decoded from: its operands are the word's fields, and the
family fixes the rest. -/
theorem encode_of_decodeWord (h : decodeWord w = .ok i) : encode i = w := by
  rw [decodeWord] at h
  split at h
  case h_1 hop => exact encode_of_decodeFamily0 hop h
  case h_9 hop => exact encode_of_decodeFamily8 hop h
  case h_15 hop => exact encode_of_decodeFamilyE hop h
  case h_2 hop | h_3 hop | h_11 hop | h_12 hop => cases h; exact wordNNN_of_op hop
  case h_4 hop | h_5 hop | h_7 hop | h_8 hop | h_13 hop => cases h; exact wordXNN_of_op hop
  case h_6 hop | h_10 hop | h_14 hop => cases h; exact word4_of_op hop
  case h_16 =>
    have hop : (fields w).op = 0xF := by simp only [imp_false] at *; bv_omega
    exact encode_of_decodeFamilyF hop h

end

end Sys2Proof

namespace Sys2Proof.Machine

/-! ### A stop and the timer tick (R212, R226) -/

section
variable {s t : State}

/-- A VM that has ended, by a stop or by a fatal error, takes no event but a reset (R206, R226). -/
theorem handleEvent_of_ended {e : HostEvent} (hend : s.runState = .stopped ∨ s.runState = .haltedFault)
    (he : e ≠ .reset) (h : handleEvent e s = .next t) : t = s := by
  have hrun : s.runState ≠ .running := by rcases hend with h | h <;> simp [h]
  have hready : s.runState ≠ .ready := by rcases hend with h | h <;> simp [h]
  cases e with
  | cycleStrobe => rw [handleEvent, handleEventBy, onCycleStrobe, if_neg hrun] at h; cases h; rfl
  | tickStrobe => rw [handleEvent, handleEventBy, onTickStrobe, if_neg hrun] at h; cases h; rfl
  | start => rw [handleEvent, handleEventBy, onStart, if_neg hready] at h; cases h; rfl
  | romLoad => rw [handleEvent, handleEventBy, onRomLoad, if_neg hready] at h; cases h
  | reset => exact absurd rfl he
  | stop =>
    cases h
    split
    · rfl
    · next hhalt => rw [State.setRunState, ← hend.resolve_right hhalt]

theorem step_of_ended (hend : s.runState = .stopped ∨ s.runState = .haltedFault)
    (hreset : s.inputs.head? ≠ some .reset) (h : step s = .next t) :
    t = { s with inputs := t.inputs, draws := t.draws } := by
  obtain ⟨e, q, d, hstep, hsource⟩ := step_cases s
  have he : e ≠ .reset := by
    rintro rfl
    rcases hsource with hin | ⟨_, hdrawn⟩
    · exact hreset (by rw [hin]; rfl)
    · rcases drawnEvent_cases s.draws with hd | hd | hd <;> cases hdrawn.trans hd
  have ht : t = { s with inputs := q, draws := d } := handleEvent_of_ended hend he (hstep.symm.trans h)
  rw [ht]

end

/-- Settles O18: in a RUNNING VM a stop is one write of `run_state`, and a VM that has ended takes no event but a
reset. -/
theorem stopTakesEffectAndHoldsUntilReset : Obligations.StopTakesEffectAndHoldsUntilReset := by
  refine ⟨fun s rest hrun hin => ?_, fun s t hstopped => step_of_ended (.inl hstopped)⟩
  have hhalt : s.runState ≠ .haltedFault := by simp [hrun]
  rw [step_cons s _ rest hin, handleEvent, handleEventBy, onStop, if_neg hhalt, State.setRunState]

/-- One step of the countdown as a number. -/
theorem countDown_eq_ofNat (b : Byte) :
    countDown b = if 0 < b.toNat then BitVec.ofNat 8 (b.toNat - 1) else b := by
  have hpred : b.toNat - 1 < 2 ^ 8 := by omega
  apply BitVec.eq_of_toNat_eq
  rw [toNat_countDown]
  split
  · rw [BitVec.toNat_ofNat, Nat.mod_eq_of_lt hpred]
  · omega

/-- Settles O23: a tick of a RUNNING VM is one countdown of each timer, and to any other VM it does nothing. -/
theorem timerTickCountsBothTimersDown : Obligations.TimerTickCountsBothTimersDown := by
  intro s rest hin
  have hstep : step s = onTickStrobe timerTick { s with inputs := rest } := step_cons s _ rest hin
  rw [hstep, onTickStrobe, ← countDown_eq_ofNat, ← countDown_eq_ofNat]
  exact ⟨fun hrun => by rw [if_pos hrun]; rfl, fun hrun => by rw [if_neg hrun], rfl⟩

/-! ### The fatal errors of the execute phase (R202 to R204) -/

/-- The address a fatal error of the execute phase records: the lowest one above 0xFFF from `I` on, for a
`MemoryFault` alone (R200). -/
def faultAddress (k : FaultKind) (s : State) : Option Nat :=
  if k = .memoryFault then some (max s.iReg.toNat 0x1000) else none

section
variable {i : Instr} {s t : State} {k : FaultKind}

/-- The conditions of R204 read `V`, `I` and the stack alone. -/
theorem raisedBy_congr (hv : s.v = t.v) (hi : s.iReg = t.iReg) (hstack : s.stack = t.stack) :
    raisedBy i s = raisedBy i t := by
  cases i <;> simp only [raisedBy, hv, hi, hstack]

/-- Under its condition of R204 an instruction takes the listed error and does nothing else. -/
theorem exec_of_raisedBy (h : raisedBy i s = some k) :
    exec i s = .next (s.raiseExecute k (faultAddress k s) i) := by
  cases i with
  | call =>
    obtain ⟨hfull, ⟨⟩⟩ := Option.ite_none_right_eq_some.1 h
    exact exec_call_of_full hfull
  | ret =>
    obtain ⟨hempty, ⟨⟩⟩ := Option.ite_none_right_eq_some.1 h
    exact exec_ret_of_empty (by rw [State.top_eq, List.length_eq_zero_iff.1 hempty, List.getLast?_nil])
  | draw =>
    obtain ⟨⟨hrows, hout⟩, ⟨⟩⟩ := Option.ite_none_right_eq_some.1 h
    exact exec_draw_of_misfits (by omega) hrows
  | bcd =>
    obtain ⟨hout, ⟨⟩⟩ := Option.ite_none_right_eq_some.1 h
    exact execBcdWith_faults .variableLength _ s (by rw [State.readV_eq]; omega)
  | storeRegs =>
    obtain ⟨hout, ⟨⟩⟩ := Option.ite_none_right_eq_some.1 h
    exact congrArg Host.Outcome.next
      (storeAtI_faults s _ _ (by rw [length_firstRegisters]; omega) (by rw [length_firstRegisters]; omega))
  | loadRegs =>
    obtain ⟨hout, ⟨⟩⟩ := Option.ite_none_right_eq_some.1 h
    exact exec_loadRegs_of_misfits hout
  | _ => cases h

/-- Outside its condition of R204 an instruction leaves `run_state` and the fault record alone. -/
theorem exec_of_raisedBy_none (h : raisedBy i s = none) (hexec : exec i s = .next t) :
    t.runState = s.runState ∧ t.fault = s.fault := by
  cases i with
  | call =>
    have hroom : s.stack.length ≠ 16 := fun hfull => nomatch (ite_eq_right_iff.1 h) hfull
    cases (exec_call_of_room hroom).symm.trans hexec
    exact ⟨rfl, rfl⟩
  | ret =>
    have hsome : s.stack.length ≠ 0 := fun hempty => nomatch (ite_eq_right_iff.1 h) hempty
    have htop : s.top = some _ := List.getLast?_eq_some_getLast (List.length_pos_iff.1 (Nat.pos_of_ne_zero hsome))
    cases (exec_ret_of_top htop).symm.trans hexec
    exact ⟨rfl, rfl⟩
  | draw _ _ n =>
    have hin : ¬(1 ≤ n.val ∧ s.iReg.toNat + n.val - 1 > 0xFFF) := fun hout => nomatch (ite_eq_right_iff.1 h) hout
    cases (exec_draw_of_fits (by omega)).symm.trans hexec
    exact ⟨rfl, rfl⟩
  | bcd x =>
    have hin : ¬s.iReg.toNat + (digits .variableLength s.v[x]).length - 1 > 0xFFF :=
      fun hout => nomatch (ite_eq_right_iff.1 h) hout
    cases (execBcdWith_fits .variableLength x s (by rw [State.readV_eq]; omega)).symm.trans hexec
    exact ⟨rfl, rfl⟩
  | storeRegs x =>
    have hin : ¬s.iReg.toNat + x.val > 0xFFF := fun hout => nomatch (ite_eq_right_iff.1 h) hout
    have hlen := length_firstRegisters s x
    cases hexec
    rw [storeAtI_fits s _ _ (.inl (by omega))]
    exact ⟨rfl, rfl⟩
  | loadRegs x =>
    have hin : ¬s.iReg.toNat + x.val > 0xFFF := fun hout => nomatch (ite_eq_right_iff.1 h) hout
    cases (exec_loadRegs_of_fits (by omega)).symm.trans hexec
    exact ⟨rfl, rfl⟩
  | skipEqNn | skipNeNn | skipEqVy | skipNeVy | skipKey | skipNotKey =>
    cases hexec
    rw [State.skipIf_eq]
    exact ⟨rfl, rfl⟩
  | getKey => cases hexec; split <;> exact ⟨rfl, rfl⟩
  | _ => cases hexec; exact ⟨rfl, rfl⟩

/-- An instruction that halts a RUNNING VM has taken its error of R204, and nothing else. -/
theorem exec_halts (hexec : exec i s = .next t) (hrun : s.runState = .running) (hhalt : t.runState = .haltedFault) :
    ∃ k, raisedBy i s = some k ∧ t = s.raiseExecute k (faultAddress k s) i := by
  cases h : raisedBy i s with
  | none =>
    obtain ⟨hkept, -⟩ := exec_of_raisedBy_none h hexec
    cases hhalt.symm.trans (hkept.trans hrun)
  | some k =>
    cases (exec_of_raisedBy h).symm.trans hexec
    exact ⟨k, rfl, rfl⟩

end

/-- Settles O53: an instruction takes its listed error exactly under its condition, the fetch fails at the lowest
address above 0xFFF, and an unknown word is reported alone. -/
theorem whichInstructionsRaiseWhichError : Obligations.WhichInstructionsRaiseWhichError := by
  refine ⟨fun i s t hexec => ⟨fun h => exec_of_raisedBy_none h hexec, fun k h => ?_⟩,
    fun s => ⟨fun hin => ⟨_, fetch_ok s (by omega)⟩, fun hout => ?_⟩, fun w e s hw => ?_⟩
  · cases (exec_of_raisedBy h).symm.trans hexec
    exact ⟨rfl, _, rfl, rfl⟩
  · have hlowest : max s.pc.toNat 0x1000 = if 0xFFF < s.pc.toNat then s.pc.toNat else s.pc.toNat + 1 := by
      split <;> omega
    have hfetch := hlowest ▸ fetch_error s (by omega)
    exact ⟨hfetch, instructionCycle_of_fetch_error hfetch⟩
  · rw [executeWord, executeWordBy, hw]
    exact ⟨_, rfl, rfl, rfl, rfl⟩

/-! ### The cycle that halts the VM (R202) -/

/-- A strobe that a RUNNING VM answers with a next state has run one instruction cycle on its samples (R96). -/
theorem instructionCycle_of_step {s t : State} {codes : List Byte} {r : Byte} {rest : List HostEvent}
    (hrun : s.runState = .running) (hin : s.inputs = .cycleStrobe codes r :: rest) (h : step s = .next t) :
    instructionCycle { s with keys := keyCodes codes, rand := r, inputs := rest } = .next t := by
  have hstrobe : onCycleStrobe exec codes r { s with inputs := rest } = .next t := (step_cons s _ rest hin).symm.trans h
  rcases onCycleStrobe_cases codes r { s with inputs := rest } with ⟨hidle, -⟩ | ⟨-, hcycle⟩ | ⟨-, hrefused⟩
  · exact absurd hrun hidle
  · exact hcycle.symm.trans hstrobe
  · cases hrefused.symm.trans hstrobe

/-- A cycle that halts a RUNNING VM has faulted in its fetch, before the advance, or has taken the error of the decoded
instruction, after it; an unknown word does not halt (R91, R92, R95). -/
theorem instructionCycle_halts {s t : State} (h : instructionCycle s = .next t) (hrun : s.runState = .running)
    (hhalt : t.runState = .haltedFault) :
    (∃ a, fetch s = .error a ∧ t = s.raiseFetch a) ∨
      ∃ w i k, fetch s = .ok w ∧ decodeWord w = .ok i ∧ raisedBy i s = some k ∧
        t = s.advance.raiseExecute k (faultAddress k s) i := by
  rcases instructionCycle_cases s with ⟨hpc, hfault⟩ | ⟨-, w, hfetch, ⟨i, hw, hexec⟩ | ⟨e, -, hunknown⟩⟩
  · cases hfault.symm.trans h
    exact .inl ⟨_, fetch_error s hpc, rfl⟩
  · obtain ⟨k, hraised, ht⟩ := exec_halts (hexec.symm.trans h) hrun hhalt
    have hcond : raisedBy i s = some k := (raisedBy_congr rfl rfl rfl).trans hraised
    exact .inr ⟨w, i, k, hfetch, hw, hcond, ht⟩
  · cases hunknown.symm.trans h
    cases hrun.symm.trans hhalt

/-- Settles O54: a fetch fault finds `pc` at the fetch address, any other fatal error finds it 2 further on, and taking
the error writes `run_state` and the record alone. -/
theorem fatalErrorsArePrecise : Obligations.FatalErrorsArePrecise := by
  intro s t codes r rest hrun hin hstep hhalt
  have hcycle := instructionCycle_of_step hrun hin hstep
  rcases instructionCycle_halts hcycle hrun hhalt with
    ⟨a, hfetch, rfl⟩ | ⟨w, i, k, hfetch, hw, hraised, rfl⟩
  · exact ⟨_, rfl, rfl, .inl ⟨a, hfetch, rfl, rfl, rfl, rfl⟩, rfl⟩
  · have hpcAt : s.pc + 2 - 2 = s.pc := BitVec.add_sub_cancel s.pc 2
    have hcond : raisedBy i s = some k := (raisedBy_congr rfl rfl rfl).trans hraised
    have hword : some (encode i) = some w := congrArg some (encode_of_decodeWord hw)
    exact ⟨_, rfl, congrArg some hpcAt, .inr ⟨w, i, hfetch, hw, hword, rfl, hcond, rfl⟩, rfl⟩

end Sys2Proof.Machine

namespace Sys2Proof.Machine

/-! ### Reset and start (R37, R240, R242) -/

/-- A reset, from any `run_state`, gives back the reset state, with the ports and the model's own fields kept (R240). -/
theorem step_reset {s : State} {rest : List HostEvent} (hin : s.inputs = .reset :: rest) :
    step s = .next { State.reset with keys := s.keys, rand := s.rand, inputs := rest, draws := s.draws } := by
  have hreset : step s = .next (State.reinitialize defaultFont { s with inputs := rest }) := step_cons s _ rest hin
  rw [hreset, reinitialize_default]

/-- A start of a READY VM writes `run_state` alone (R242). -/
theorem step_start {s : State} {rest : List HostEvent} (hready : s.runState = .ready)
    (hin : s.inputs = .start :: rest) : step s = .next { s with runState := .running, inputs := rest } := by
  rw [step_cons s _ rest hin, handleEvent, handleEventBy, onStart, if_pos hready, State.setRunState]

/-- The load of an empty image into a READY VM writes nothing (R243). -/
theorem step_romLoad_nil {s : State} {rest : List HostEvent} (hready : s.runState = .ready)
    (hin : s.inputs = .romLoad [] :: rest) : step s = .next { s with inputs := rest } := by
  rw [step_cons s _ rest hin, handleEvent, handleEventBy, onRomLoad, if_pos hready, loadImage, if_neg (by simp),
    writeBytes, State.setMem]

@[simp] theorem State.reset_v (x : RegIdx) : State.reset.v[x] = 0 := by
  simp [State.reset]

@[simp] theorem State.reset_fb (x : Fin 64) (y : Fin 32) : State.reset.fb[y][x] = false := by
  simp [State.reset]

/-- After reset the font table stands at `FONT_BASE`, which lies below 0x200 (R59, R60). -/
theorem resetByte_font (j : Nat) (h : j < 80) : resetByte (Config.fontBase.val + j) = fontGlyphs.getD j 0 := by
  have hbase := Config.fontBase.isLt
  rw [resetByte, resetByteWith, if_pos (by rw [Config.programBase]; omega), if_pos (by omega), Nat.add_sub_cancel_left]
  rfl

/-- After reset every address outside the font table holds zero (R37). -/
theorem resetByte_outside_font (a : Nat) (h : a < Config.fontBase.val ∨ Config.fontBase.val + 80 ≤ a) :
    resetByte a = 0 := by
  rw [resetByte, resetByteWith]
  split
  · split
    · have hpast : defaultFont.toList.length ≤ a - Config.fontBase.val := by rw [Vector.length_toList]; omega
      exact List.getD_eq_default _ _ hpast
    · rfl
  · rfl

/-- Settles O15: a reset is `step_reset` whatever ended the run, and memory is the reset contents, inside and outside
the font table. -/
theorem resetGivesEveryPieceItsResetValue : Obligations.ResetGivesEveryPieceItsResetValue :=
  ⟨fun _ _ _ hin => step_reset hin, State.reset_v, rfl, rfl, rfl, rfl, rfl, State.reset_fb, rfl, rfl, rfl,
    resetByte_font, fun a _ hout => resetByte_outside_font a hout⟩

/-- Settles O19: a start moves `run_state` alone, so the first fetch reads memory at the reset vector. -/
theorem startRunsFromTheResetVector : Obligations.StartRunsFromTheResetVector := by
  have hpc : State.reset.pc.toNat < 0xFFF := by decide
  exact ⟨fun s rest => step_start, fun m q => ⟨_, step_start rfl rfl, rfl, rfl,
    fetch_ok { State.reset with mem := m, runState := .running, inputs := q } hpc⟩⟩

/-! ### An empty image (R245) -/

theorem run_succ_of_step {s t : State} (k : Nat) (h : step s = .next t) :
    Host.Core.run core (k + 1) s = Host.Core.run core k t := by
  have hcore : core.step s = .next t := h
  simp only [Host.Core.run, hcore]

/-- From 0x200 on, memory with no image loaded holds the zero word (R37, R59). -/
theorem wordAt_nil_of_ge (a : Nat) (h : Config.programBase ≤ a) : wordAt [] a = 0 := by
  rw [wordAt, Memory.readByte_nil, Memory.readByte_nil, resetByte_of_ge a h, resetByte_of_ge (a + 1) (by omega)]
  rfl

/-- Where the core is after `k` zero words from the reset vector (R245). -/
def zeroWordAddress (k : Nat) : Word := BitVec.ofNat 16 (0x200 + 2 * k)

theorem zeroWordAddress_succ (k : Nat) : zeroWordAddress (k + 1) = zeroWordAddress k + 2 := by
  rw [zeroWordAddress, zeroWordAddress, Nat.mul_succ, ← Nat.add_assoc, BitVec.ofNat_add]
  rfl

theorem toNat_zeroWordAddress {k : Nat} (h : k ≤ 1792) : (zeroWordAddress k).toNat = 0x200 + 2 * k := by
  rw [zeroWordAddress, BitVec.toNat_ofNat, Nat.mod_eq_of_lt (by omega)]

/-- The reports of the first `k` zero words, in order (R95, R245). -/
def zeroWordReports (k : Nat) : List UnknownRecord :=
  (List.range k).map (fun j => { word := 0x0000, addr := zeroWordAddress j })

theorem zeroWordReports_succ (k : Nat) :
    zeroWordReports (k + 1) = zeroWordReports k ++ [{ word := 0x0000, addr := zeroWordAddress k }] := by
  simp [zeroWordReports, List.range_succ]

/-- A RUNNING VM with no image loaded that has reported `k` zero words, and that only strobes of the engine await. -/
structure State.ReportedZeroWords (k : Nat) (s : State) : Prop where
  running : s.runState = .running
  memory : s.mem = []
  pc : s.pc = zeroWordAddress k
  events : s.unknownEvents = zeroWordReports k
  strobes : ∀ e ∈ s.inputs, ∃ codes r, e = .cycleStrobe codes r

/-- Below the end of memory the next cycle reports one more zero word (R245). -/
theorem step_reportsZeroWord {k : Nat} {s : State} {e : HostEvent} {rest : List HostEvent}
    (hs : s.ReportedZeroWords k) (hk : k < 1792) (hin : s.inputs = e :: rest) :
    ∃ t, step s = .next t ∧ t.ReportedZeroWords (k + 1) ∧ t.inputs = rest := by
  have hstrobes : ∀ e' ∈ e :: rest, ∃ codes r, e' = .cycleStrobe codes r := hin ▸ hs.strobes
  obtain ⟨codes, r, rfl⟩ := hstrobes e List.mem_cons_self
  have hpc : s.pc.toNat = 0x200 + 2 * k := hs.pc ▸ toNat_zeroWordAddress (by omega)
  have hzero : wordAt s.mem s.pc.toNat = 0 := by
    rw [hs.memory]
    exact wordAt_nil_of_ge _ (by rw [Config.programBase]; omega)
  have hunknown : decodeWord (wordAt s.mem s.pc.toNat) = .error (.unknown0 0) := by rw [hzero]; rfl
  refine ⟨_, unknownWordIsReportedAndSkipped s codes r rest _ hs.running hin (by omega) hunknown, ?_, rfl⟩
  exact {
    running := hs.running
    memory := hs.memory
    pc := by rw [zeroWordAddress_succ, ← hs.pc]
    events := by rw [zeroWordReports_succ, ← hs.events, ← hs.pc, hzero]
    strobes := fun e' he' => hstrobes e' (List.mem_cons_of_mem _ he') }

/-- `n` cycles report `n` more zero words, as far as the end of memory. -/
theorem run_reportsZeroWords (n : Nat) {k : Nat} {s : State} (hs : s.ReportedZeroWords k) (hk : k + n ≤ 1792)
    (hn : n ≤ s.inputs.length) :
    ∃ t, Host.Core.run core n s = .next t ∧ t.ReportedZeroWords (k + n) ∧ t.inputs = s.inputs.drop n := by
  induction n generalizing k s with
  | zero => exact ⟨s, rfl, hs, rfl⟩
  | succ n ih =>
    obtain ⟨e, rest, hin⟩ := List.exists_cons_of_length_pos (show 0 < s.inputs.length by omega)
    obtain ⟨u, hstep, hu, hrest⟩ := step_reportsZeroWord hs (by omega) hin
    have hlen : n ≤ u.inputs.length := by rw [hin, List.length_cons] at hn; rw [hrest]; omega
    obtain ⟨t, hrun, ht, hdrop⟩ := ih hu (by omega) hlen
    refine ⟨t, (run_succ_of_step n hstep).trans hrun, ?_, ?_⟩
    · rwa [show k + (n + 1) = k + 1 + n by omega]
    · rw [hdrop, hrest, hin, List.drop_succ_cons]

/-- Once `pc` has run off the end of memory, the next cycle takes the `MemoryFault` of its fetch (R91, R245). -/
theorem step_offEndOfMemory {s : State} {e : HostEvent} {rest : List HostEvent} (hs : s.ReportedZeroWords 1792)
    (hin : s.inputs = e :: rest) :
    ∃ u, step s = .next u ∧ u.runState = .haltedFault ∧ u.pc = 0x1000 ∧ u.fault = some
      { kind := .memoryFault, addr := some 0x1000, pcAt := some 0x1000, word := none, length := none } := by
  obtain ⟨codes, r, rfl⟩ := hs.strobes e (by rw [hin]; exact List.mem_cons_self)
  have hpc : s.pc = 0x1000 := hs.pc
  have hbad : 0xFFF < s.pc.toNat ∧ 0x1000 = s.pc.toNat := by rw [hpc]; decide
  obtain ⟨-, hfetch⟩ := fetchReadsTwoBytesOrFaultsBeforeTheAdvance
  refine ⟨_, hfetch s codes r rest 0x1000 hs.running hin (.inl hbad), rfl, hpc, ?_⟩
  rw [hpc]

/-- Settles O21: after the load and the start the VM has reported no word, 1792 strobes bring it to the end of memory,
and the one left over faults. -/
theorem emptyImageRunsOffTheEndOfMemory : Obligations.EmptyImageRunsOffTheEndOfMemory := by
  intro strobes hlen hstrobes
  have hstart : State.ReportedZeroWords 0 { State.reset with runState := .running, inputs := strobes } :=
    ⟨rfl, rfl, rfl, rfl, hstrobes⟩
  obtain ⟨t, hrun, ht, hdrop⟩ := run_reportsZeroWords 1792 hstart (by omega) (by rw [hlen]; omega)
  have hlast : 0 < t.inputs.length := by rw [hdrop, List.length_drop, hlen]; decide
  obtain ⟨e, rest, hin⟩ := List.exists_cons_of_length_pos hlast
  obtain ⟨u, hstep, hhalt, hpc, hfault⟩ := step_offEndOfMemory ht hin
  have hload : step { State.reset with inputs := .romLoad [] :: .start :: strobes } =
      .next { State.reset with inputs := .start :: strobes } := step_romLoad_nil rfl rfl
  have hfrom : Host.Core.run core 1794 { State.reset with inputs := .romLoad [] :: .start :: strobes } = .next t :=
    (run_succ_of_step 1793 hload).trans ((run_succ_of_step 1792 (step_start rfl rfl)).trans hrun)
  exact ⟨t, u, hfrom, ht.events, ht.pc, hstep, hhalt, hpc, hfault⟩

end Sys2Proof.Machine

namespace Sys2Proof

/-! ### Decoding the word of an instruction -/

/-- The three word forms give their fields back, and the family and sub-opcode select the constructor. -/
theorem decodeWord_encode (i : Instr) : decodeWord (encode i) = .ok i := by
  cases i with
  | jump | call | setI | jumpOffset => rw [encode, decodeWord, fields_wordNNN]; rfl
  | skipEqNn | skipNeNn | setVx | addVx | rand | skipKey | skipNotKey =>
    rw [encode, decodeWord, fields_wordXNN]; rfl
  | getDelay | getKey | setDelay | setSound | addI | fontChar | bcd | storeRegs | loadRegs =>
    rw [encode, decodeWord, fields_wordXNN]; rfl
  | _ => rw [encode, decodeWord, fields_word4]; rfl

/-- Settles O1: the bytes of a word decode as the word, and the word of an instruction decodes to it. -/
theorem decodeOfEncodeGivesTheInstruction : Obligations.DecodeOfEncodeGivesTheInstruction :=
  fun i rest => decode_bytesOfWord_ok (encode i) i rest (decodeWord_encode i)

/-- Settles O2: an instruction keeps every field of its word. -/
theorem encodeOfDecodeGivesTheWord : Obligations.EncodeOfDecodeGivesTheWord :=
  fun _ _ => encode_of_decodeWord

/-! ### The opcode table and the decoder (R82, R94) -/

theorem rowSelects_iff (r : OpcodeRow) (w : Word) : rowSelects r w = true ↔ w &&& r.mask = r.pattern :=
  beq_iff_eq

/-- The word of every instruction is selected by the instruction's row. -/
theorem rowSelects_encode : ∀ i : Instr, rowSelects (rowOf i) (encode i) = true
  | .cls _ => Laws.TableRow.cls _
  | .ret _ => Laws.TableRow.ret _
  | .jump _ => Laws.TableRow.jump _
  | .call _ => Laws.TableRow.call _
  | .skipEqNn _ _ => Laws.TableRow.skipEqNn _ _
  | .skipNeNn _ _ => Laws.TableRow.skipNeNn _ _
  | .skipEqVy _ _ _ => Laws.TableRow.skipEqVy _ _ _
  | .setVx _ _ => Laws.TableRow.setVx _ _
  | .addVx _ _ => Laws.TableRow.addVx _ _
  | .setReg _ _ => Laws.TableRow.setReg _ _
  | .orReg _ _ => Laws.TableRow.orReg _ _
  | .andReg _ _ => Laws.TableRow.andReg _ _
  | .xorReg _ _ => Laws.TableRow.xorReg _ _
  | .addReg _ _ => Laws.TableRow.addReg _ _
  | .subVx _ _ => Laws.TableRow.subVx _ _
  | .shiftRight _ _ => Laws.TableRow.shiftRight _ _
  | .subVy _ _ => Laws.TableRow.subVy _ _
  | .shiftLeft _ _ => Laws.TableRow.shiftLeft _ _
  | .skipNeVy _ _ _ => Laws.TableRow.skipNeVy _ _ _
  | .setI _ => Laws.TableRow.setI _
  | .jumpOffset _ => Laws.TableRow.jumpOffset _
  | .rand _ _ => Laws.TableRow.rand _ _
  | .draw _ _ _ => Laws.TableRow.draw _ _ _
  | .skipKey _ => Laws.TableRow.skipKey _
  | .skipNotKey _ => Laws.TableRow.skipNotKey _
  | .getDelay _ => Laws.TableRow.getDelay _
  | .getKey _ => Laws.TableRow.getKey _
  | .setDelay _ => Laws.TableRow.setDelay _
  | .setSound _ => Laws.TableRow.setSound _
  | .addI _ => Laws.TableRow.addI _
  | .fontChar _ => Laws.TableRow.fontChar _
  | .bcd _ => Laws.TableRow.bcd _
  | .storeRegs _ => Laws.TableRow.storeRegs _
  | .loadRegs _ => Laws.TableRow.loadRegs _

/-- A word that some row selects decodes to an instruction of that row. -/
theorem decodeWord_of_rowSelects {j : Instr} {w : Word} (h : rowSelects (rowOf j) w = true) :
    ∃ i, decodeWord w = .ok i ∧ rowOf i = rowOf j := by
  rw [rowSelects_iff] at h
  cases j with
  | cls | ret =>
    dsimp only [rowOf] at h
    exact ⟨_, decodeWord_eq_decodeFamily0 h rfl, rfl⟩
  | jump => exact ⟨_, decodeWord_jump h, rfl⟩
  | call => exact ⟨_, decodeWord_call h, rfl⟩
  | skipEqNn => exact ⟨_, decodeWord_skipEqNn h, rfl⟩
  | skipNeNn => exact ⟨_, decodeWord_skipNeNn h, rfl⟩
  | skipEqVy => exact ⟨_, decodeWord_skipEqVy h, rfl⟩
  | setVx => exact ⟨_, decodeWord_setVx h, rfl⟩
  | addVx => exact ⟨_, decodeWord_addVx h, rfl⟩
  | skipNeVy => exact ⟨_, decodeWord_skipNeVy h, rfl⟩
  | setI => exact ⟨_, decodeWord_setI h, rfl⟩
  | jumpOffset => exact ⟨_, decodeWord_jumpOffset h, rfl⟩
  | rand => exact ⟨_, decodeWord_rand h, rfl⟩
  | draw => exact ⟨_, decodeWord_draw h, rfl⟩
  | setReg | orReg | andReg | xorReg | addReg | subVx | shiftRight | subVy | shiftLeft =>
    dsimp only [rowOf] at h
    exact ⟨_, decodeWord_eq_decodeFamily8 h rfl, rfl⟩
  | skipKey | skipNotKey =>
    dsimp only [rowOf] at h
    exact ⟨_, decodeWord_eq_decodeFamilyE h rfl, rfl⟩
  | _ =>
    dsimp only [rowOf] at h
    exact ⟨_, decodeWord_eq_decodeFamilyF h rfl, rfl⟩

/-- Settles O3: a decoded word is the encoding of its instruction, which its row selects, and any row that selects a
word is the row of what the word decodes to. -/
theorem everyWordHasItsOneTableRowOrNone : Obligations.EveryWordHasItsOneTableRowOrNone := by
  refine ⟨fun w i hw => ⟨?_, fun j hj => ?_⟩, fun w e hw j => ?_⟩
  · rw [← encode_of_decodeWord hw]
    exact rowSelects_encode i
  · obtain ⟨i', hi', hrow⟩ := decodeWord_of_rowSelects hj
    cases hw.symm.trans hi'
    exact hrow.symm
  · rw [Bool.eq_false_iff]
    intro hj
    obtain ⟨i', hi', -⟩ := decodeWord_of_rowSelects hj
    cases hw.symm.trans hi'

/-! ### The unknown words (R81) -/

section
variable (w : Word) (f : Fields)

theorem decodeFamily0_error_iff : (∃ e, decodeFamily0 w f = .error e) ↔ f.nn ≠ 0xE0 ∧ f.nn ≠ 0xEE := by
  rw [decodeFamily0]
  split <;> simp_all

theorem decodeFamily8_error_iff :
    (∃ e, decodeFamily8 w f = .error e) ↔ f.n ∈ ([0x8, 0x9, 0xA, 0xB, 0xC, 0xD, 0xF] : List Nibble) := by
  have hn : ∀ n : Nibble, n ∈ ([0x8, 0x9, 0xA, 0xB, 0xC, 0xD, 0xF] : List Nibble) ↔
      n ∉ ([0x0, 0x1, 0x2, 0x3, 0x4, 0x5, 0x6, 0x7, 0xE] : List Nibble) := by decide
  rw [decodeFamily8, hn]
  split <;> simp_all

theorem decodeFamilyE_error_iff : (∃ e, decodeFamilyE w f = .error e) ↔ f.nn ≠ 0x9E ∧ f.nn ≠ 0xA1 := by
  rw [decodeFamilyE]
  split <;> simp_all

theorem decodeFamilyF_error_iff : (∃ e, decodeFamilyF w f = .error e) ↔
    f.nn ∉ ([0x07, 0x0A, 0x15, 0x18, 0x1E, 0x29, 0x33, 0x55, 0x65] : List Byte) := by
  rw [decodeFamilyF]
  split <;> simp_all

end

/-- Settles O4: only the four families with a sub-opcode can fail, each on what its sub-opcodes leave out. -/
theorem unknownWordsAreThoseOfTheFourFamilies : Obligations.UnknownWordsAreThoseOfTheFourFamilies := by
  intro w
  rw [← decodeFamily0_error_iff w, ← decodeFamily8_error_iff w, ← decodeFamilyE_error_iff w,
    ← decodeFamilyF_error_iff w, decodeWord]
  split
  case h_16 =>
    have hop : (fields w).op = 0xF := by simp only [imp_false] at *; bv_omega
    simp [hop]
  all_goals next hop => simp [hop]

end Sys2Proof

namespace Sys2Proof.Machine

/-! ### What an instruction can do -/

/-- What instruction `i` can do to `s`: a fatal error of its execute phase, or one write to the pieces of state that
R21 to R35 let it change. The bounds on a new `pc` are those that R27 draws from the forms of control transfer. -/
inductive ExecEffect (s : State) : Instr → State → Prop
  | fault (i : Instr) (k : FaultKind) (a : Option Nat) : ExecEffect s i (s.raiseExecute k a i)
  | registers (i : Instr) (v : Vector Byte 16) (hkept : ∀ r : RegIdx, mayWriteV i r = false → v[r] = s.v[r]) :
      ExecEffect s i { s with v := v }
  | pc (i : Instr) (target : Word) (hbound : target.toNat ≤ 0x10FE ∨ target = s.pc + 2 ∨ target = s.pc - 2) :
      ExecEffect s i (s.setPc target)
  | call (nnn : Addr12) (hroom : s.stack.length ≠ Config.stackDepth) :
      ExecEffect s (.call nnn) ((s.push s.pc).setPc (addressOperand nnn))
  | ret (x : Nibble) (entry : Word) (htop : s.top = some entry) : ExecEffect s (.ret x) (s.dropTop.setPc entry)
  | cls (x : Nibble) : ExecEffect s (.cls x) (s.setFb clearedFramebuffer)
  | draw (x y : RegIdx) (n : RowCount) (fb : Framebuffer) (c : Bool) :
      ExecEffect s (.draw x y n) ((s.setFb fb).writeV vf (collisionFlag c))
  | store (i : Instr) (bytes : List Byte) (hcount : bytes.length = storeCount i s) :
      ExecEffect s i (s.setMem (writeBytes s.mem s.iReg.toNat bytes))
  | setI (nnn : Addr12) : ExecEffect s (.setI nnn) (s.setI (addressOperand nnn))
  | addI (x : RegIdx) : ExecEffect s (.addI x) (s.setI (s.iReg + (s.readV x).setWidth 16))
  | fontChar (x : RegIdx) : ExecEffect s (.fontChar x) (s.setI (fontAddress (s.readV x)))
  | setDelay (x : RegIdx) : ExecEffect s (.setDelay x) (s.setDt (s.readV x))
  | setSound (x : RegIdx) : ExecEffect s (.setSound x) (s.setSt (s.readV x))

theorem toNat_addressOperand_lt (nnn : Addr12) : (addressOperand nnn).toNat < 0x1000 := by
  rw [addressOperand, BitVec.toNat_setWidth_of_le (by decide)]
  exact nnn.isLt

section
variable {i : Instr} {s t : State}

/-- A register write leaves every other register alone. -/
theorem getElem_set_of_ne (v : Vector Byte 16) {x r : RegIdx} (b : Byte) (h : r ≠ x) : (v.set x b)[r] = v[r] :=
  Vector.getElem_set_ne x.isLt r.isLt (Fin.val_ne_of_ne h.symm)

/-- A register write is one of the table's when it names `x` alone. -/
theorem ExecEffect.writeV (x : RegIdx) (b : Byte) (hx : ∀ r, mayWriteV i r = false → r ≠ x) :
    ExecEffect s i (s.writeV x b) :=
  .registers i _ fun r hr => getElem_set_of_ne s.v b (hx r hr)

/-- The flag writers write Vx and VF, in either order. -/
theorem ExecEffect.writeV_writeV (x y : RegIdx) (b c : Byte) (hx : ∀ r, mayWriteV i r = false → r ≠ x ∧ r ≠ y) :
    ExecEffect s i ((s.writeV x b).writeV y c) := by
  refine .registers i _ fun r hr => ?_
  obtain ⟨hrx, hry⟩ := hx r hr
  exact (getElem_set_of_ne _ c hry).trans (getElem_set_of_ne s.v b hrx)

theorem ExecEffect.skipIf (c : Bool) : ExecEffect s i (s.skipIf c) := by
  cases c with
  | true => exact .pc i _ (.inr (.inl rfl))
  | false => exact .registers i s.v fun _ _ => rfl

theorem ExecEffect.storeAtI {bytes : List Byte} (hcount : bytes.length = storeCount i s) :
    ExecEffect s i (storeAtI s bytes i) := by
  rw [Machine.storeAtI]
  split
  · exact .fault i _ _
  · exact .store i bytes hcount

/-- Everything an instruction can do. -/
theorem exec_effect (h : exec i s = .next t) : ExecEffect s i t := by
  cases i with
  | cls x => cases h; exact .cls x
  | ret x =>
    cases h
    split
    · exact .fault _ _ _
    · next htop => exact .ret x _ htop
  | call nnn =>
    cases h
    split
    · exact .fault _ _ _
    · next hroom => exact .call nnn hroom
  | jump nnn => cases h; exact .pc _ _ (.inl (by have := toNat_addressOperand_lt nnn; omega))
  | jumpOffset nnn =>
    cases (exec_jumpOffset nnn s).symm.trans h
    have hnnn : nnn.toNat < 0x1000 := nnn.isLt
    have hv : s.v[0].toNat < 0x100 := s.v[0].isLt
    exact .pc _ _ (.inl (by rw [BitVec.toNat_ofNat]; omega))
  | skipEqNn | skipNeNn | skipEqVy | skipNeVy | skipKey | skipNotKey => cases h; exact .skipIf _
  | setVx | addVx | setReg | orReg | andReg | xorReg | rand | getDelay =>
    cases h
    exact .writeV _ _ fun r hr => by simpa [mayWriteV] using hr
  | addReg | subVx | subVy =>
    cases h
    exact .writeV_writeV _ _ _ _ fun r hr => by simpa [mayWriteV, vf] using hr
  | shiftRight | shiftLeft =>
    cases h
    exact .writeV_writeV _ _ _ _ fun r hr => by simpa [mayWriteV, vf, and_comm] using hr
  | getKey x =>
    cases h
    split
    · exact .pc _ _ (.inr (.inr rfl))
    · exact .writeV _ _ fun r hr => by simpa [mayWriteV] using hr
  | loadRegs x =>
    cases h
    split
    · exact .fault _ _ _
    · refine .registers _ _ fun r hr => ?_
      have hrx : ¬r ≤ x := by simpa [mayWriteV] using hr
      exact (getElem_loadRegisters_readBytes s s.mem _ x r).trans (if_neg hrx)
  | draw x y n =>
    cases h
    split
    · exact .fault _ _ _
    · exact .draw x y n _ _
  | setI nnn => cases h; exact .setI nnn
  | addI x => cases h; exact .addI x
  | fontChar x => cases h; exact .fontChar x
  | setDelay x => cases h; exact .setDelay x
  | setSound x => cases h; exact .setSound x
  | bcd x => cases h; exact .storeAtI rfl
  | storeRegs x => cases h; exact .storeAtI (length_firstRegisters s x)

/-! ### What an instruction leaves unchanged -/

theorem exec_keeps_events (h : exec i s = .next t) : t.unknownEvents = s.unknownEvents := by
  cases exec_effect h <;> rfl

theorem exec_keeps_ports (h : exec i s = .next t) : t.keys = s.keys ∧ t.rand = s.rand := by
  cases exec_effect h <;> exact ⟨rfl, rfl⟩

theorem exec_keeps_memory_wf (h : exec i s = .next t) (hm : s.mem.wf = true) : t.mem.wf = true := by
  cases exec_effect h with
  | store _ bytes => exact writeBytes_wf s.mem _ bytes hm
  | _ => exact hm

/-- An instruction keeps the bounds of R27 and R31, fetched from an address with two bytes of memory. -/
theorem exec_keeps_bounded (h : exec i s = .next t) (hlow : 2 ≤ s.pc.toNat) (hhigh : s.pc.toNat ≤ 0x1000)
    (hlen : s.stack.length ≤ Config.stackDepth) (hentries : ∀ e ∈ s.stack, e.toNat ≤ 0x1000) :
    t.addressesBounded := by
  cases exec_effect h with
  | pc _ target hbound =>
    refine ⟨?_, hlen, hentries⟩
    rw [State.setPc_pc]
    rcases hbound with hjump | rfl | rfl
    · exact hjump
    · bv_omega
    · bv_omega
  | call nnn hroom =>
    have htarget := toNat_addressOperand_lt nnn
    refine ⟨by rw [State.setPc_pc]; omega, ?_, fun e he => ?_⟩
    · rw [State.setPc_stack, State.push_stack, List.length_append]
      exact Nat.lt_of_le_of_ne hlen hroom
    · rcases List.mem_append.1 he with he | he
      · exact hentries e he
      · rw [List.mem_singleton.1 he]; exact hhigh
  | ret x entry htop =>
    have hentry : entry.toNat ≤ 0x1000 := hentries entry (List.mem_of_getLast? htop)
    refine ⟨by rw [State.setPc_pc]; omega, ?_, fun e he => hentries e (List.dropLast_subset _ he)⟩
    rw [State.setPc_stack, State.dropTop_stack, List.length_dropLast]
    omega
  | _ => exact ⟨hhigh.trans (by decide), hlen, hentries⟩

end

end Sys2Proof.Machine

namespace Sys2Proof.Machine

/-! ### What a step can do -/

/-- What handling one event can do to `s`: nothing, a cycle by the outcome of its fetch and decode, a tick, or the act
of the host. -/
inductive EventEffect (s : State) : State → Prop
  | idle : EventEffect s s
  | fetchFault (ks : List Nibble) (r : Byte) (a : Nat) : EventEffect s ((s.samplePorts ks r).raiseFetch a)
  | execute (ks : List Nibble) (r : Byte) (i : Instr) (t : State) (hpc : s.pc.toNat < 0xFFF)
      (hexec : exec i (s.samplePorts ks r).advance = .next t) : EventEffect s t
  | unknown (ks : List Nibble) (r : Byte) (w : Word) (e : DecodeError) (hpc : s.pc.toNat < 0xFFF)
      (hw : decodeWord w = .error e) : EventEffect s ((s.samplePorts ks r).advance.reportUnknown w s.pc)
  | tick : EventEffect s (timerTick s)
  | stop (hhalt : s.runState ≠ .haltedFault) : EventEffect s (s.setRunState .stopped)
  | start (hready : s.runState = .ready) : EventEffect s (s.setRunState .running)
  | reset : EventEffect s (s.reinitialize defaultFont)
  | romTooLarge (len : Nat) : EventEffect s (s.raiseRomTooLarge len)
  | load (image : List Byte) : EventEffect s (s.setMem (writeBytes s.mem Config.programBase image))

section
variable {s t : State}

theorem instructionCycle_effect {ks : List Nibble} {r : Byte}
    (h : instructionCycle (s.samplePorts ks r) = .next t) : EventEffect s t := by
  rcases instructionCycle_cases (s.samplePorts ks r) with
    ⟨-, hfault⟩ | ⟨hpc, w, -, ⟨i, -, hexec⟩ | ⟨e, hw, hunknown⟩⟩
  · cases hfault.symm.trans h
    exact .fetchFault ks r _
  · exact .execute ks r i t hpc (hexec.symm.trans h)
  · cases hunknown.symm.trans h
    exact .unknown ks r w e hpc hw

theorem handleEvent_effect {e : HostEvent} (h : handleEvent e s = .next t) : EventEffect s t := by
  cases e with
  | cycleStrobe codes r =>
    have hstrobe : onCycleStrobe exec codes r s = .next t := h
    rcases onCycleStrobe_cases codes r s with ⟨-, hidle⟩ | ⟨-, hcycle⟩ | ⟨-, hrefused⟩
    · cases hidle.symm.trans hstrobe
      exact .idle
    · exact instructionCycle_effect (hcycle.symm.trans hstrobe)
    · cases hrefused.symm.trans hstrobe
  | tickStrobe =>
    cases h
    split
    · exact .tick
    · exact .idle
  | stop =>
    cases h
    split
    · exact .idle
    · next hhalt => exact .stop hhalt
  | start =>
    cases h
    split
    · next hready => exact .start hready
    · exact .idle
  | reset => cases h; exact .reset
  | romLoad image =>
    rw [handleEvent, handleEventBy, onRomLoad] at h
    split at h
    · cases h
      rw [loadImage]
      split
      · exact .romTooLarge _
      · exact .load image
    · cases h

/-- Everything a step can do, the event it takes aside. -/
theorem step_effect (h : step s = .next t) : ∃ q d, EventEffect { s with inputs := q, draws := d } t := by
  obtain ⟨e, q, d, hstep, -⟩ := step_cases s
  exact ⟨q, d, handleEvent_effect (hstep.symm.trans h)⟩

/-! ### The four invariants -/

theorem EventEffect.keeps_memoryCanonical (h : EventEffect s t) (hs : s.memoryCanonical) : t.memoryCanonical := by
  cases h with
  | execute _ _ _ _ _ hexec => exact exec_keeps_memory_wf hexec hs
  | reset => exact fontMemory_wf defaultFont
  | load image => exact writeBytes_wf s.mem _ image hs
  | _ => exact hs

theorem reset_addressesBounded : State.reset.addressesBounded :=
  ⟨by decide, by decide, fun _ he => nomatch he⟩

/-- Below 0xFFF the advance stays at or below 0x1000. -/
theorem toNat_add_two {a : Word} (h : a.toNat < 0xFFF) : (a + 2).toNat = a.toNat + 2 := by
  bv_omega

theorem EventEffect.keeps_addressesBounded (h : EventEffect s t) (hs : s.addressesBounded) :
    t.addressesBounded := by
  obtain ⟨hpc, hlen, hentries⟩ := hs
  cases h with
  | execute ks r i t hin hexec =>
    have hadvance : (s.samplePorts ks r).advance.pc.toNat = s.pc.toNat + 2 := toNat_add_two hin
    exact exec_keeps_bounded hexec (by omega) (by omega) hlen hentries
  | unknown ks r w e hin =>
    have hadvance : ((s.samplePorts ks r).advance.reportUnknown w s.pc).pc.toNat = s.pc.toNat + 2 :=
      toNat_add_two hin
    exact ⟨by omega, hlen, hentries⟩
  | reset => exact reset_addressesBounded
  | _ => exact ⟨hpc, hlen, hentries⟩

theorem reset_faultRecorded : State.reset.faultRecorded :=
  iff_of_false (by decide) (by decide)

theorem raiseFatal_faultRecorded (s : State) (r : FaultRecord) : (s.raiseFatal r).faultRecorded :=
  iff_of_true rfl rfl

/-- A new `run_state` other than HALTED_FAULT needs a state with no record. -/
theorem setRunState_faultRecorded {r : RunState} (hs : s.faultRecorded) (hhalt : s.runState ≠ .haltedFault)
    (hr : r ≠ .haltedFault) : (s.setRunState r).faultRecorded :=
  iff_of_false hr (mt hs.2 hhalt)

/-- An instruction takes its error with a record, or leaves both alone. -/
theorem exec_keeps_faultRecorded {i : Instr} (h : exec i s = .next t) (hs : s.faultRecorded) : t.faultRecorded := by
  cases hraised : raisedBy i s with
  | none =>
    obtain ⟨hrun, hfault⟩ := exec_of_raisedBy_none hraised h
    rw [State.faultRecorded, hrun, hfault]
    exact hs
  | some k =>
    cases (exec_of_raisedBy hraised).symm.trans h
    exact raiseFatal_faultRecorded s _

theorem EventEffect.keeps_faultRecorded (h : EventEffect s t) (hs : s.faultRecorded) : t.faultRecorded := by
  cases h with
  | fetchFault | romTooLarge => exact raiseFatal_faultRecorded _ _
  | execute _ _ _ _ _ hexec => exact exec_keeps_faultRecorded hexec hs
  | stop hhalt => exact setRunState_faultRecorded hs hhalt (by decide)
  | start hready => exact setRunState_faultRecorded hs (by rw [hready]; decide) (by decide)
  | reset => exact reset_faultRecorded
  | _ => exact hs

theorem EventEffect.keeps_eventsUnknown (h : EventEffect s t) (hs : s.eventsUnknown) : t.eventsUnknown := by
  cases h with
  | execute _ _ _ _ _ hexec =>
    rw [State.eventsUnknown, exec_keeps_events hexec]
    exact hs
  | unknown _ _ w e _ hw =>
    intro record hrecord
    rcases List.mem_append.1 hrecord with hold | hnew
    · exact hs record hold
    · rw [List.mem_singleton.1 hnew]
      exact ⟨e, hw⟩
  | reset => exact fun _ he => nomatch he
  | _ => exact hs

end

/-- Settles O56: the writes of memory are those of BCD, STORE_REGS, the load and the reset, and each keeps the form. -/
theorem stepKeepsMemoryCanonical : Obligations.StepKeepsMemoryCanonical := by
  intro s t hs h
  obtain ⟨q, d, heffect⟩ := step_effect h
  exact heffect.keeps_memoryCanonical hs

/-- Settles O57: a cycle that executes has advanced to at most 0x1000, which a CALL may push; a target of control
transfer is a jump's, at most 0x10FE, or 2 away from the advance, or an entry of the stack. -/
theorem stepKeepsPcAndStackBounded : Obligations.StepKeepsPcAndStackBounded := by
  intro s t hs h
  obtain ⟨q, d, heffect⟩ := step_effect h
  exact heffect.keeps_addressesBounded hs

/-- Settles O58: every fatal error writes `run_state` and the record together, and only a reset leaves HALTED_FAULT. -/
theorem stepKeepsFaultRecordedExactlyWhenHalted : Obligations.StepKeepsFaultRecordedExactlyWhenHalted := by
  intro s t hs h
  obtain ⟨q, d, heffect⟩ := step_effect h
  exact heffect.keeps_faultRecorded hs

/-- Settles O59: the event stream grows by words that failed to decode, and no instruction touches it. -/
theorem stepKeepsReportedWordsUnknown : Obligations.StepKeepsReportedWordsUnknown := by
  intro s t hs h
  obtain ⟨q, d, heffect⟩ := step_effect h
  exact heffect.keeps_eventsUnknown hs

/-- Settles O60: nothing is listed, pushed, recorded or reported at reset. -/
theorem resetIsSound : Obligations.ResetIsSound where
  memory := Memory.wf_nil
  addresses := reset_addressesBounded
  fault := reset_faultRecorded
  events := fun _ he => nomatch he

end Sys2Proof.Machine

namespace Sys2Proof.Machine

/-! ### The frame of every instruction -/

/-- Settles O46: every meaning is `.next` of a state. -/
theorem everyInstructionAnswersANextState : Obligations.EveryInstructionAnswersANextState := by
  intro i s
  cases i <;> exact ⟨_, rfl⟩

section
variable {i : Instr} {s t : State}

theorem exec_keeps_register {r : RegIdx} (h : exec i s = .next t) (hr : mayWriteV i r = false) :
    t.v[r] = s.v[r] := by
  cases exec_effect h with
  | registers _ v hkept => exact hkept r hr
  | draw => exact getElem_set_of_ne s.v _ (by simpa [mayWriteV, vf] using hr)
  | _ => rfl

theorem exec_keeps_fb (h : exec i s = .next t) (hcls : ∀ x, i ≠ .cls x) (hdraw : ∀ x y n, i ≠ .draw x y n) :
    t.fb = s.fb := by
  cases exec_effect h with
  | cls => exact absurd rfl (hcls _)
  | draw => exact absurd rfl (hdraw _ _ _)
  | _ => rfl

theorem exec_keeps_iReg (h : exec i s = .next t) (hset : ∀ n, i ≠ .setI n) (hadd : ∀ x, i ≠ .addI x)
    (hfont : ∀ x, i ≠ .fontChar x) : t.iReg = s.iReg := by
  cases exec_effect h with
  | setI => exact absurd rfl (hset _)
  | addI => exact absurd rfl (hadd _)
  | fontChar => exact absurd rfl (hfont _)
  | _ => rfl

theorem exec_keeps_dt (h : exec i s = .next t) (hset : ∀ x, i ≠ .setDelay x) : t.dt = s.dt := by
  cases exec_effect h with
  | setDelay => exact absurd rfl (hset _)
  | _ => rfl

theorem exec_keeps_st (h : exec i s = .next t) (hset : ∀ x, i ≠ .setSound x) : t.st = s.st := by
  cases exec_effect h with
  | setSound => exact absurd rfl (hset _)
  | _ => rfl

theorem exec_keeps_stack (h : exec i s = .next t) (hcall : ∀ n, i ≠ .call n) (hret : ∀ x, i ≠ .ret x) :
    t.stack = s.stack := by
  cases exec_effect h with
  | call => exact absurd rfl (hcall _)
  | ret => exact absurd rfl (hret _)
  | _ => rfl

/-- An address that is none of `n` addresses from `base` on lies on one side of them. -/
theorem lt_or_le_of_ne_add {a base n : Nat} (h : ∀ k, k < n → a ≠ base + k) : a < base ∨ base + n ≤ a := by
  by_contra! hin
  exact h (a - base) (by omega) (by omega)

theorem exec_keeps_byte {a : Nat} (h : exec i s = .next t) (hm : s.mem.wf = true)
    (ha : ∀ k, k < storeCount i s → a ≠ effectiveAddress s k) : t.mem.readByte a = s.mem.readByte a := by
  cases exec_effect h with
  | store _ bytes hcount =>
    rw [← hcount] at ha
    exact readByte_writeBytes_outside s.mem _ a bytes hm (lt_or_le_of_ne_add ha)
  | _ => rfl

end

/-- Settles O48: the registers an instruction may write are the table's. -/
theorem registersChangeOnlyWhereTheTableSays : Obligations.RegistersChangeOnlyWhereTheTableSays :=
  fun _ _ _ _ => exec_keeps_register

/-- Settles O50: a store writes as many bytes from `I` on as the table counts. -/
theorem memoryChangesOnlyWhereTheInstructionStores : Obligations.MemoryChangesOnlyWhereTheInstructionStores :=
  fun _ _ _ hm h _ => exec_keeps_byte h hm

/-- Settles O51: two effects of an instruction write the framebuffer, those of CLS and DRAW; a tick writes the timers
and an unknown word `pc` and the event stream. -/
theorem framebufferChangesOnlyByClsAndDraw : Obligations.FramebufferChangesOnlyByClsAndDraw := by
  refine ⟨fun _ _ _ => exec_keeps_fb, fun _ => rfl, fun w e s t hw h => ?_⟩
  rw [executeWord, executeWordBy, hw] at h
  cases h
  rfl

/-- Settles O52: each piece of state has its own effects, and only a fatal error writes `run_state` and the record. -/
theorem specialStateChangesOnlyByItsInstructions : Obligations.SpecialStateChangesOnlyByItsInstructions := by
  intro i s t h
  obtain ⟨hkeys, hrand⟩ := exec_keeps_ports h
  obtain ⟨hinputs, hdraws⟩ := exec_host i s t h
  exact ⟨exec_keeps_iReg h, exec_keeps_dt h, exec_keeps_st h, exec_keeps_stack h, exec_keeps_events h, hkeys, hrand,
    hinputs, hdraws, fun hraised => exec_of_raisedBy_none hraised h⟩

/-! ### VF after the flag writers (R22) -/

theorem shiftedOutRight_eq_zero_or_one (a : Byte) : shiftedOutRight a = 0 ∨ shiftedOutRight a = 1 := by
  rw [shiftedOutRight_eq_mod]
  rcases Nat.mod_two_eq_zero_or_one a.toNat with h | h
  · exact .inl (by rw [h]; rfl)
  · exact .inr (by rw [h]; rfl)

/-- Bit 7 is bit 0 of the byte shifted right by 7. -/
theorem shiftedOutLeft_eq_zero_or_one (a : Byte) : shiftedOutLeft a = 0 ∨ shiftedOutLeft a = 1 :=
  shiftedOutRight_eq_zero_or_one (a >>> 7)

theorem State.writeV_vf (s : State) (b : Byte) : (s.writeV vf b).v[15] = b :=
  Vector.getElem_set_self _

/-- A write of another register keeps the flag written before it. -/
theorem State.writeV_vf_writeV (s : State) {x : RegIdx} (b c : Byte) (hx : x ≠ 15) :
    ((s.writeV vf b).writeV x c).v[15] = b :=
  (getElem_set_of_ne (s.writeV vf b).v c hx.symm).trans (s.writeV_vf b)

/-- Settles O49: VF is written last, or the result goes to another register; a DRAW that leaves the VM RUNNING has not
faulted. -/
theorem flagWritersLeaveZeroOrOneInVf : Obligations.FlagWritersLeaveZeroOrOneInVf := by
  rintro i s t h - hrun
    (⟨x, y, rfl | rfl | rfl⟩ | ⟨x, y, hx, rfl | rfl⟩ | ⟨x, y, n, rfl⟩)
  case inr.inr =>
    cases h
    split at hrun
    · cases hrun
    · dsimp only; rw [State.writeV_vf]; exact flagByte_eq_zero_or_one _
  case inr.inl.inl => cases h; rw [State.writeV_vf_writeV _ _ _ hx]; exact shiftedOutRight_eq_zero_or_one _
  case inr.inl.inr => cases h; rw [State.writeV_vf_writeV _ _ _ hx]; exact shiftedOutLeft_eq_zero_or_one _
  all_goals cases h; rw [State.writeV_vf]; exact flagByte_eq_zero_or_one _

/-! ### The ports an instruction reads (R221, R222) -/

section
variable (s : State) (ks : List Nibble) (r : Byte)

theorem skipIf_samplePorts (c : Bool) : (s.samplePorts ks r).skipIf c = (s.skipIf c).samplePorts ks r := by
  cases c <;> rfl

theorem storeAtI_samplePorts (bytes : List Byte) (i : Instr) :
    storeAtI (s.samplePorts ks r) bytes i = (storeAtI s bytes i).samplePorts ks r := by
  simp only [storeAtI, effectiveAddress_eq, State.samplePorts_iReg]
  cases firstOutOfRange (s.iReg.toNat + 0) bytes.length <;> rfl

end

/-- An instruction gives the same result with other port samples, if it reads none that differs. -/
theorem exec_samplePorts {i : Instr} {s t : State} {ks : List Nibble} {r : Byte} (h : exec i s = .next t)
    (hkeys : isKeyInstr i = true → ks = s.keys) (hrand : isRand i = true → r = s.rand) :
    exec i (s.samplePorts ks r) = .next (t.samplePorts ks r) := by
  cases i with
  | skipKey | skipNotKey =>
    cases hkeys rfl; cases h; exact congrArg Host.Outcome.next (skipIf_samplePorts s s.keys r _)
  | skipEqNn | skipNeNn | skipEqVy | skipNeVy =>
    cases h; exact congrArg Host.Outcome.next (skipIf_samplePorts s ks r _)
  | getKey =>
    cases hkeys rfl
    cases hs : s.keys with
    | nil =>
      cases (exec_getKey_of_nil hs).symm.trans h
      exact exec_getKey_of_nil rfl
    | cons k rest =>
      cases (exec_getKey_of_cons hs).symm.trans h
      exact exec_getKey_of_cons rfl
  | rand => cases hrand rfl; cases h; rfl
  | bcd | storeRegs => cases h; exact congrArg Host.Outcome.next (storeAtI_samplePorts s ks r _ _)
  | draw x y n =>
    simp only [exec, execDraw, effectiveAddress_eq, State.samplePorts_iReg] at h ⊢
    cases h
    cases firstOutOfRange (s.iReg.toNat + 0) n.val <;> rfl
  | loadRegs x =>
    simp only [exec, execLoadRegs, effectiveAddress_eq, State.samplePorts_iReg] at h ⊢
    cases h
    cases firstOutOfRange (s.iReg.toNat + 0) (registerCount x) <;> rfl
  | ret =>
    simp only [exec, execReturn, State.top_eq, State.samplePorts_stack] at h ⊢
    cases h
    cases s.stack.getLast? <;> rfl
  | call =>
    by_cases hfull : s.stack.length = Config.stackDepth
    · cases (exec_call_of_full hfull).symm.trans h
      exact exec_call_of_full hfull
    · cases (exec_call_of_room hfull).symm.trans h
      exact exec_call_of_room hfull
  | _ => cases h; rfl

/-- Settles O55: another sample of one port is another sample of both with the second as it was. -/
theorem portsAreReadOnlyByTheirInstructions : Obligations.PortsAreReadOnlyByTheirInstructions := by
  intro i s t h
  obtain ⟨hkeys, hrand⟩ := exec_keeps_ports h
  refine ⟨fun hi ks => ?_, fun hi r => ?_⟩
  · have hsame : { t with keys := ks } = t.samplePorts ks s.rand := by rw [← hrand]; rfl
    rw [hsame]
    exact exec_samplePorts h (fun hkey => by cases hi.symm.trans hkey) fun _ => rfl
  · have hsame : { t with rand := r } = t.samplePorts s.keys r := by rw [← hkeys]; rfl
    rw [hsame]
    exact exec_samplePorts h (fun _ => rfl) fun hr => by cases hi.symm.trans hr

end Sys2Proof.Machine

namespace Sys2Proof.Machine

/-! ### Memory as a map from addresses to bytes (R50, R53) -/

/-- Settles O7: the range check decides, and a write changes the one read at its address. -/
theorem accessInsideReadsAndWritesOneByte : Obligations.AccessInsideReadsAndWritesOneByte := by
  refine fun m a v hm => ⟨fun ha => ⟨memRead_ok m a ha, m.writeByte a v, ?_, m.writeByte_wf a v hm, ?_, ?_⟩,
    fun ha => ⟨memRead_error m a ha, ?_⟩⟩
  · rw [memWrite, if_neg (by omega)]
  · rw [memRead_ok _ a ha, m.readByte_writeByte a a v hm (by rw [Config.memSize]; omega), if_pos rfl]
  · intro b hb
    rw [memRead, memRead, m.readByte_writeByte_ne a b v hm hb]
  · rw [memWrite, if_pos ha]

/-- The first cell of a canonical memory reads as no memory does whose listed addresses are all above it. -/
theorem Memory.readByte_head_ne {c : Host.Cell} {m n : Memory} (hm : Memory.wf (c :: m) = true)
    (hn : ∀ d ∈ n, c.1 < d.1) : Memory.readByte (c :: m) c.1 ≠ n.readByte c.1 := by
  obtain ⟨-, -, hreset, -⟩ := (Memory.wf_cons c m).1 hm
  rw [Memory.readByte_of_lt_all n c.1 hn, Memory.readByte_cons, if_pos rfl]
  exact hreset

/-- Of two canonical memories that read alike, one does not begin below the other. -/
theorem Memory.head_not_lt {c d : Host.Cell} {m n : Memory} (hm : Memory.wf (c :: m) = true)
    (hn : Memory.wf (d :: n) = true) (hread : ∀ a, Memory.readByte (c :: m) a = Memory.readByte (d :: n) a) :
    ¬c.1 < d.1 := by
  intro hlt
  obtain ⟨habove, -, -, -⟩ := (Memory.wf_cons d n).1 hn
  refine Memory.readByte_head_ne hm (fun e he => ?_) (hread c.1)
  rcases List.mem_cons.1 he with rfl | he
  · exact hlt
  · exact hlt.trans (habove e he)

/-- Settles O8: by induction on the first list; the lowest address that either lists tells them apart, unless both list
the same byte there. -/
theorem canonicalMemoriesThatReadAlikeAreEqual : Obligations.CanonicalMemoriesThatReadAlikeAreEqual := by
  intro m n hm hn hread
  induction m generalizing n with
  | nil =>
    cases n with
    | nil => rfl
    | cons d n => exact absurd (hread d.1).symm (Memory.readByte_head_ne hn fun _ he => nomatch he)
  | cons c m ih =>
    cases n with
    | nil => exact absurd (hread c.1) (Memory.readByte_head_ne hm fun _ he => nomatch he)
    | cons d n =>
      have hcd := Memory.head_not_lt hm hn hread
      have hdc := Memory.head_not_lt hn hm fun a => (hread a).symm
      obtain ⟨a, u⟩ := c
      obtain ⟨b, v⟩ := d
      obtain rfl : a = b := Nat.le_antisymm (Nat.not_lt.1 hdc) (Nat.not_lt.1 hcd)
      obtain ⟨hmabove, -, -, hmtail⟩ := (Memory.wf_cons _ m).1 hm
      obtain ⟨hnabove, -, -, hntail⟩ := (Memory.wf_cons _ n).1 hn
      simp only [Memory.readByte_cons] at hread
      obtain rfl : u = v := by simpa using hread a
      refine congrArg _ (ih n hmtail hntail fun e => ?_)
      by_cases he : e = a
      · rw [he, Memory.readByte_of_lt_all m a hmabove, Memory.readByte_of_lt_all n a hnabove]
      · simpa [he] using hread e

/-! ### A step by the event at the front of the queue -/

section
variable {s : State} {rest : List HostEvent}

theorem step_eq_onCycleStrobe {codes : List Byte} {r : Byte} (hin : s.inputs = .cycleStrobe codes r :: rest) :
    step s = onCycleStrobe exec codes r { s with inputs := rest } :=
  step_cons s _ rest hin

theorem step_eq_onTickStrobe (hin : s.inputs = .tickStrobe :: rest) :
    step s = onTickStrobe timerTick { s with inputs := rest } :=
  step_cons s _ rest hin

theorem step_eq_onRomLoad {image : List Byte} (hin : s.inputs = .romLoad image :: rest) :
    step s = onRomLoad image { s with inputs := rest } :=
  step_cons s _ rest hin

end

/-! ### A strobe whose word decodes (R92 to R94, R227) -/

theorem keySampleWellFormed_iff (codes : List Byte) :
    keySampleWellFormed codes = true ↔ ∀ c ∈ codes, c.toNat ≤ 0xF := by
  simp [keySampleWellFormed, keyCodeWellFormed]

section
variable {s : State} {w : Word} {i : Instr}

/-- A cycle samples the keys exactly when it executes a key instruction (R222). -/
theorem samplesKeys_of_decoded (hf : fetch s = .ok w) (hw : decodeWord w = .ok i) :
    samplesKeys s = isKeyInstr i := by
  rw [samplesKeys, hf]
  simp only [hw]
  cases i <;> rfl

theorem instructionCycle_of_decoded (hf : fetch s = .ok w) (hw : decodeWord w = .ok i) :
    instructionCycle s = exec i s.advance := by
  rw [instructionCycle, instructionCycleBy, hf]
  simp only [executeWordBy, hw]

/-- A strobe of a RUNNING VM whose fetched word decodes is that instruction, after the advance. -/
theorem step_of_decoded {codes : List Byte} {r : Byte} {rest : List HostEvent} (hrun : s.runState = .running)
    (hin : s.inputs = .cycleStrobe codes r :: rest) (hf : fetch s = .ok w) (hw : decodeWord w = .ok i)
    (hkeys : keySampleWellFormed codes = true ∨ isKeyInstr i = false) :
    step s = exec i { s with pc := s.pc + 2, keys := keyCodes codes, rand := r, inputs := rest } := by
  rw [← samplesKeys_of_decoded hf hw] at hkeys
  rw [step_cycleStrobe hrun hin hkeys]
  exact instructionCycle_of_decoded (s := { s with keys := keyCodes codes, rand := r, inputs := rest }) hf hw

end

theorem decodeWord_of_decode {hi lo : Byte} {i : Instr} (h : decode [hi, lo] = .ok (i, [])) :
    decodeWord (wordOfBytes hi lo) = .ok i := by
  rw [decode] at h
  split at h
  · next hw => cases h; exact hw
  · cases h

/-- Settles O10: the fetch reads the two bytes, and they decode as their word. -/
theorem stepRunsTheDecodedInstruction : Obligations.StepRunsTheDecodedInstruction := by
  intro s codes r rest i hrun hin hpc hdecode hkeys
  rw [← keySampleWellFormed_iff] at hkeys
  exact step_of_decoded hrun hin (fetch_ok s hpc) (decodeWord_of_decode hdecode) hkeys

/-- Settles O12: the sample is not well formed and the fetched word samples it; a load outside READY has no other
branch. -/
theorem hostOutsideItsContractIsRefused : Obligations.HostOutsideItsContractIsRefused := by
  refine ⟨fun s codes r rest i hrun hin hpc hw hkey hbad => ?_, fun s image rest hready hin => ?_⟩
  · have hcodes : ¬keySampleWellFormed codes = true := by
      rw [keySampleWellFormed_iff]
      push Not
      exact hbad
    have hsamples : samplesKeys { s with inputs := rest } = true :=
      (samplesKeys_of_decoded (fetch_ok s hpc) hw).trans hkey
    rw [step_eq_onCycleStrobe hin, onCycleStrobe, if_pos hrun, hsamples, if_neg (by simpa using hcodes)]
  · rw [step_eq_onRomLoad hin, onRomLoad, if_neg hready]

/-- Settles O13: the event is the drawn one, whose key codes are widened from 4 bits; queued alone it is the next
event. -/
theorem noQueuedEventMeansACycleATickOrAStop : Obligations.NoQueuedEventMeansACycleATickOrAStop := by
  intro s hin
  refine ⟨drawnEvent s.draws, ?_, ?_⟩
  · rcases drawnEvent_cases s.draws with he | he | he
    · exact .inl ⟨_, _, (keySampleWellFormed_iff _).1 (keySampleWellFormed_map _), he⟩
    · exact .inr (.inl he)
    · exact .inr (.inr he)
  · rw [step_nil s hin, step_cons _ _ [] rfl, ← hin]

theorem decodeWord_of_decodeTableWord {w : Nat} {i : Instr} (h : decodeTableWord 16 w = some i) :
    decodeWord (BitVec.ofNat 16 (w % 2 ^ 16)) = .ok i := by
  cases hw : decodeWord (BitVec.ofNat 16 (w % 2 ^ 16)) with
  | ok j =>
    rw [ofNat_mod_two_pow] at hw
    exact congrArg Except.ok (Option.some.inj ((decodeTableWord_ok w j hw).symm.trans h))
  | error e =>
    rw [ofNat_mod_two_pow] at hw
    cases (decodeTableWord_error w e hw).symm.trans h

/-- The two bytes of a word, written where both exist, read back as the word. -/
theorem wordAt_writeBytes_bytesOfWord (m : Memory) (a : Nat) (w : Word) (hm : m.wf = true) (ha : a + 1 ≤ 0xFFF) :
    wordAt (writeBytes m a (bytesOfWord w)) a = w := by
  have hend : a + (bytesOfWord w).length ≤ Config.memSize := Nat.succ_le_succ ha
  have hhi := readByte_writeBytes_inside m a 0 (bytesOfWord w) hm Nat.zero_lt_two hend
  have hlo := readByte_writeBytes_inside m a 1 (bytesOfWord w) hm Nat.one_lt_two hend
  rw [Nat.add_zero] at hhi
  rw [wordAt, hhi, hlo]
  exact wordOfBytes_bytesOfWord w

/-- Settles O14: the placed word is what the next cycle fetches, and the strobe put before the queue samples what the
ports hold. -/
theorem placedWordIsTheNextInstruction : Obligations.PlacedWordIsTheNextInstruction := by
  intro s w i hm hpc hdecode
  have hfetch : fetch (s.withFetchWord 16 w) = .ok (BitVec.ofNat 16 (w % 2 ^ 16)) :=
    (fetch_ok (s.withFetchWord 16 w) hpc).trans
      (congrArg Except.ok (wordAt_writeBytes_bytesOfWord s.mem s.pc.toNat _ hm hpc))
  rw [step_of_decoded rfl rfl hfetch (decodeWord_of_decodeTableWord hdecode) (.inl (keySampleWellFormed_map s.keys)),
    keyCodes_map]
  rfl

/-! ### The other events -/

/-- Settles O16: both strobes are enabled only when RUNNING. -/
theorem strobesDoNothingUnlessRunning : Obligations.StrobesDoNothingUnlessRunning := by
  rintro s e rest hrun hin (rfl | ⟨codes, r, rfl⟩)
  · rw [step_eq_onTickStrobe hin, onTickStrobe, if_neg hrun]
  · rw [step_eq_onCycleStrobe hin, onCycleStrobe, if_neg hrun]

/-- Settles O17: HALTED_FAULT has ended the run, and only a reset leaves an ended run. -/
theorem haltedVmIsLeftOnlyByReset : Obligations.HaltedVmIsLeftOnlyByReset :=
  fun _ _ hhalt => step_of_ended (.inr hhalt)

section
variable {s : State} {image : List Byte} {rest : List HostEvent} (hready : s.runState = .ready)
  (hin : s.inputs = .romLoad image :: rest)
include hready hin

theorem step_romLoad : step s = .next (loadImage image { s with inputs := rest }) := by
  rw [step_eq_onRomLoad hin, onRomLoad, if_pos hready]

theorem step_romLoad_of_fits (hlen : image.length ≤ Config.maxRomSize) :
    step s = .next { s with mem := writeBytes s.mem Config.programBase image, inputs := rest } := by
  rw [step_romLoad hready hin, loadImage, if_neg (Nat.not_lt.2 hlen), State.setMem]

theorem step_romLoad_of_misfits (hlen : Config.maxRomSize < image.length) :
    step s = .next (State.raiseRomTooLarge { s with inputs := rest } image.length) := by
  rw [step_romLoad hready hin, loadImage, if_pos hlen]

end

/-- A start outside READY has no effect (log entry 10). -/
theorem step_start_of_not_ready {s : State} {rest : List HostEvent} (hready : s.runState ≠ .ready)
    (hin : s.inputs = .start :: rest) : step s = .next { s with inputs := rest } := by
  rw [step_cons s _ rest hin, handleEvent, handleEventBy, onStart, if_neg hready]

/-- Settles O20: the length decides; an image that fits is one sequence of writes from 0x200 on, and a VM that took
RomTooLarge is not READY. -/
theorem loadCopiesTheImageOrWritesNothing : Obligations.LoadCopiesTheImageOrWritesNothing := by
  refine fun s image rest hready hm hin => ⟨fun hlen => ?_, fun hlen => ?_⟩
  · have hend : Config.programBase + image.length ≤ Config.memSize := by
      rw [Config.programBase, Config.memSize]; omega
    exact ⟨_, step_romLoad_of_fits hready hin hlen, rfl,
      fun k hk => readByte_writeBytes_inside s.mem _ k image hm hk hend,
      fun a ha => readByte_writeBytes_outside s.mem _ a image hm ha⟩
  · exact ⟨_, step_romLoad_of_misfits hready hin hlen, rfl, fun q => step_start_of_not_ready (fun h => nomatch h) rfl⟩

theorem step_tick {s : State} {rest : List HostEvent} (hrun : s.runState = .running)
    (hin : s.inputs = .tickStrobe :: rest) : step s = .next (timerTick { s with inputs := rest }) := by
  rw [step_eq_onTickStrobe hin, onTickStrobe, if_pos hrun]

/-- The HALT idiom is a matter of `pc` and memory. -/
theorem atHalt_congr {s t : State} (hpc : t.pc = s.pc) (hm : t.mem = s.mem) (h : s.atHalt) : t.atHalt := by
  obtain ⟨nnn, hfetch, htarget⟩ := h
  exact ⟨nnn, (fetch_congr t s hpc hm).trans hfetch, htarget.trans hpc.symm⟩

/-- Settles O22: the jump puts `pc` back where the advance found it, and a tick writes the timers alone. -/
theorem haltIdiomChangesNothing : Obligations.HaltIdiomChangesNothing := by
  refine fun s rest hrun hhalt => ⟨fun codes r hin => ?_, fun hin => ?_⟩
  · have ⟨nnn, hfetch, htarget⟩ := hhalt
    have hstep := step_of_decoded hrun hin hfetch (decodeWord_encode (.jump nnn)) (.inr rfl)
    refine ⟨{ s with keys := keyCodes codes, rand := r, inputs := rest }, ?_, atHalt_congr rfl rfl hhalt, rfl⟩
    rw [hstep, exec, execJump, State.setPc, htarget]
  · exact ⟨_, step_tick hrun hin, atHalt_congr rfl rfl hhalt, rfl⟩

/-- Settles O24: by induction on the number of ticks, each a truncated subtraction of 1 from both timers. -/
theorem ticksCountDelayDownToZeroAndNoFurther : Obligations.TicksCountDelayDownToZeroAndNoFurther := by
  intro n
  induction n with
  | zero =>
    intro s rest _ hin
    have hrest : s.inputs = rest := hin
    exact ⟨s, rfl, rfl, rfl, by rw [← hrest]⟩
  | succ n ih =>
    intro s rest hrun hin
    rw [List.replicate_succ, List.cons_append] at hin
    have hstep := step_tick hrun hin
    obtain ⟨t, hticks, hdt, hst, ht⟩ :=
      ih (timerTick { s with inputs := List.replicate n .tickStrobe ++ rest }) rest hrun rfl
    refine ⟨t, (run_succ_of_step n hstep).trans hticks, ?_, ?_, ht⟩
    · have hone : (countDown s.dt).toNat = s.dt.toNat - 1 := toNat_countDown s.dt
      have hrest : t.dt.toNat = (countDown s.dt).toNat - n := hdt
      omega
    · have hone : (countDown s.st).toNat = s.st.toNat - 1 := toNat_countDown s.st
      have hrest : t.st.toNat = (countDown s.st).toNat - n := hst
      omega

/-! ### Drawing twice (R171, R174) -/

/-- Two framebuffers with the same pixels are the same. -/
theorem Framebuffer.ext_pixels {a b : Framebuffer} (h : ∀ (p : Fin 64) (q : Fin 32), a[q][p] = b[q][p]) : a = b :=
  Vector.ext fun q hq => Vector.ext fun p hp => h ⟨p, hp⟩ ⟨q, hq⟩

theorem drawSprite_drawSprite_fb (fb : Framebuffer) (x0 y0 : Nat) (rows : List Byte) :
    (drawSprite (drawSprite fb x0 y0 rows).1 x0 y0 rows).1 = fb := by
  refine Framebuffer.ext_pixels fun p q => ?_
  rw [drawSprite_fb, drawSprite_fb, Bool.xor_assoc, Bool.xor_self, Bool.xor_false]

/-- The second draw turns off what the first turned on. -/
theorem drawSprite_drawSprite_collision (fb : Framebuffer) (x0 y0 : Nat) (rows : List Byte) :
    (drawSprite (drawSprite fb x0 y0 rows).1 x0 y0 rows).2 = true ↔
      ∃ (p : Fin 64) (q : Fin 32), fb[q][p] = false ∧ (drawSprite fb x0 y0 rows).1[q][p] = true := by
  rw [drawSprite_collision, drawSprite_drawSprite_fb]
  exact exists_congr fun p => exists_congr fun q => and_comm

/-- Writing VF moves no sprite whose registers are not VF. -/
theorem spriteDrawing_setFb_writeV_vf {x y : RegIdx} (n : RowCount) (s : State) (fb : Framebuffer) (b : Byte)
    (hx : x ≠ 15) (hy : y ≠ 15) :
    spriteDrawing x y n ((s.setFb fb).writeV vf b) = spriteDrawing x y n (s.setFb fb) := by
  have hvx : ((s.setFb fb).writeV vf b).v[x] = s.v[x] := getElem_set_of_ne s.v b hx
  have hvy : ((s.setFb fb).writeV vf b).v[y] = s.v[y] := getElem_set_of_ne s.v b hy
  rw [spriteDrawing, State.readV_eq, State.readV_eq, hvx, hvy]
  rfl

/-- Settles O42: the second draw XORs the same bits at the same place, so it gives the first framebuffer back, and its
collisions are the pixels that the first turned on. -/
theorem drawingTwiceRestoresThePixels : Obligations.DrawingTwiceRestoresThePixels := by
  intro x y n s hx hy hfit
  have hagain := spriteDrawing_setFb_writeV_vf n s (spriteDrawing x y n s).1 (collisionFlag (spriteDrawing x y n s).2)
    hx hy
  refine ⟨_, _, exec_draw_of_fits (.inl hfit), exec_draw_of_fits (.inl hfit), ?_, ?_⟩
  · rw [hagain]
    exact drawSprite_drawSprite_fb s.fb _ _ _
  · rw [hagain, State.writeV_vf, collisionFlag, flagByte_eq_one_iff]
    exact drawSprite_drawSprite_collision s.fb _ _ _

end Sys2Proof.Machine

namespace Sys2Proof

/-- Settles O6: each word, split into its fields, selects its family and its sub-opcode. -/
theorem writtenOutWordsDecodeAsTheSpecSays : Obligations.WrittenOutWordsDecodeAsTheSpecSays :=
  ⟨rfl, rfl, rfl, rfl, rfl, rfl, rfl, rfl, rfl, rfl, rfl, rfl, rfl, rfl, rfl⟩

end Sys2Proof
